-- ==== Sys2Proof/Word.lean ====
section
/-! DEFINITION. The word types of the CHIP-8 core (rules R10, R11, R91): every value is an unsigned bit
pattern, bit 0 least significant. -/

namespace Sys2Proof

/-- A register, memory cell, timer or `kk` immediate: 8 bits, unsigned (rules R11, R21, R42). -/
abbrev Byte := BitVec 8

/-- A fetched opcode, `pc`, a stack slot, the key mask: 16 bits (rules R20, R90). -/
abbrev Word16 := BitVec 16

/-- The `nnn` field: an absolute address, 12 bits (rule R91). -/
abbrev Addr12 := BitVec 12

/-- A 4-bit field: the family `t`, the sprite height `n`, a sub-opcode nibble (rule R91). -/
abbrev Nibble := BitVec 4

/-- The number of a general register V0 to VF: the `x` or `y` field; all 16 values name a register (rules R21, R23). -/
abbrev Reg := BitVec 4

/-- A key index 0 to 15, the width of the KEY_DOWN and KEY_UP ports (rules R34, R50). -/
abbrev Key := BitVec 4

/-- The register VF, which doubles as the flag (rules R22, R27). -/
abbrev VF : Reg := 15#4

end Sys2Proof
end

