-- ==== Sys2Proof/Config.lean ====
section
/-! DEFINITION. What is fixed for one instance of the hardware and is not state: the fixed sizes and addresses of
rule R8, the parameters of rule R9 at this hardware's values, and the one free value (the random byte, rule R276). -/

namespace Sys2Proof

/-- Main memory is 4096 bytes, addresses 0x000 to 0xFFF (rules R8, R42). -/
abbrev Config.memSize : Nat := 4096

/-- The highest address, 0xFFF (rules R42, R66). -/
abbrev Config.lastAddr : Nat := 0xFFF

/-- The font region is the addresses below 0x050 (rules R42, R68). -/
abbrev Config.fontEnd : Nat := 0x050

/-- `font_base` of Fx29, 0x000 (rules R43, R193). -/
abbrev Config.fontBase : Nat := 0x000

/-- Program load address and entry point, 0x200 (rules R8, R24, R68). -/
abbrev Config.programBase : Nat := 0x200

/-- First byte of the display buffer, 0xF00 (rules R8, R44). -/
abbrev Config.displayBase : Nat := 0xF00

/-- The display buffer is 256 bytes: 32 rows of 8 bytes (rules R42, R44). -/
abbrev Config.displaySize : Nat := 256

/-- Parameter `I_WIDTH` (rules R9, R28): the width of the index register, at which Fx1E wraps. This hardware: 12.
DESIGN CHOICE of the spec (its decision D1): see assumption 2. -/
abbrev Config.iWidth : Nat := 12

/-- Parameter `STACK_DEPTH` (rules R9, R31): how many return addresses the stack holds. This hardware: 32.
DESIGN CHOICE of the spec (its decision D5): see assumption 3. -/
abbrev Config.stackDepth : Nat := 32

/-- `SP` counts bytes, two a slot, so it is bounded by twice the depth, 64 (rule R30, conflict C10). -/
abbrev Config.spLimit : Nat := 2 * Config.stackDepth

/-- Glyphs 0 to 7 of `FONT` (rule R43), five bytes each, top row first. PRESUMED: see assumption 1. -/
def Config.fontLow : List Byte :=
  [0xF0, 0x90, 0x90, 0x90, 0xF0] ++ [0x20, 0x60, 0x20, 0x20, 0x70] ++
  [0xF0, 0x10, 0xF0, 0x80, 0xF0] ++ [0xF0, 0x10, 0xF0, 0x10, 0xF0] ++
  [0x90, 0x90, 0xF0, 0x10, 0x10] ++ [0xF0, 0x80, 0xF0, 0x10, 0xF0] ++
  [0xF0, 0x80, 0xF0, 0x90, 0xF0] ++ [0xF0, 0x10, 0x20, 0x40, 0x40]

/-- Glyphs 8 to F of `FONT` (rule R43). PRESUMED: see assumption 1. -/
def Config.fontHigh : List Byte :=
  [0xF0, 0x90, 0xF0, 0x90, 0xF0] ++ [0xF0, 0x90, 0xF0, 0x10, 0xF0] ++
  [0xF0, 0x90, 0xF0, 0x90, 0x90] ++ [0xE0, 0x90, 0xE0, 0x90, 0xE0] ++
  [0xF0, 0x80, 0x80, 0x80, 0xF0] ++ [0xE0, 0x90, 0x90, 0x90, 0xE0] ++
  [0xF0, 0x80, 0xF0, 0x80, 0xF0] ++ [0xF0, 0x80, 0xF0, 0x80, 0x80]

/-- Parameter `FONT` (rules R9, R43): the 80 bytes at 0x000 to 0x04F, glyph `g` at `5g`. A claim about a glyph's
pixels depends on this table, which no document gives. PRESUMED: see assumption 1. -/
def Config.font : List Byte := Config.fontLow ++ Config.fontHigh

/-- The font byte at address `a` of the font region. -/
def Config.fontByte (a : Nat) : Byte := Config.font.getD a 0

/-- The free value behind Cxkk (rule R276): byte number `k` of the caller's random source, when the host has put no
byte on the `rand` input. It has no body, so nothing can be proved of it: see assumption 4. -/
opaque Config.freeRandomByte : Nat → Byte

end Sys2Proof
end

