-- ==== Sys2Proof/Syntax.lean ====
section
/-! DEFINITION. The instruction set: the ONE inductive `Instr`, one constructor per row of spec/opcode_table.json
(rules R2, R96), each named after its pattern (rule R101), its operands at exactly the widths of rule R91. -/

namespace Sys2Proof

/-- The 34 instructions (rule R96). `x` and `y` are register numbers, `kk`, `nnn` and `n` immediates (rule R93). -/
inductive Instr where
  /-- 00E0, CLS: clear the display (R211). -/
  | op00E0
  /-- 00EE, RET: return from subroutine (R121). -/
  | op00EE
  /-- 1nnn, JP nnn (R122). -/
  | op1nnn (nnn : Addr12)
  /-- 2nnn, CALL nnn (R123). -/
  | op2nnn (nnn : Addr12)
  /-- 3xkk, SE Vx, kk (R141). -/
  | op3xkk (x : Reg) (kk : Byte)
  /-- 4xkk, SNE Vx, kk (R142). -/
  | op4xkk (x : Reg) (kk : Byte)
  /-- 5xy0, SE Vx, Vy (R143). -/
  | op5xy0 (x y : Reg)
  /-- 6xkk, LD Vx, kk (R161). -/
  | op6xkk (x : Reg) (kk : Byte)
  /-- 7xkk, ADD Vx, kk (R162). -/
  | op7xkk (x : Reg) (kk : Byte)
  /-- 8xy0, LD Vx, Vy (R163). -/
  | op8xy0 (x y : Reg)
  /-- 8xy1, OR Vx, Vy (R164). -/
  | op8xy1 (x y : Reg)
  /-- 8xy2, AND Vx, Vy (R165). -/
  | op8xy2 (x y : Reg)
  /-- 8xy3, XOR Vx, Vy (R166). -/
  | op8xy3 (x y : Reg)
  /-- 8xy4, ADD Vx, Vy (R167). -/
  | op8xy4 (x y : Reg)
  /-- 8xy5, SUB Vx, Vy (R168). -/
  | op8xy5 (x y : Reg)
  /-- 8xy6, SHR Vx; `y` is decoded and ignored (R99, R169). -/
  | op8xy6 (x y : Reg)
  /-- 8xy7, SUBN Vx, Vy (R170). -/
  | op8xy7 (x y : Reg)
  /-- 8xyE, SHL Vx; `y` is decoded and ignored (R99, R171). -/
  | op8xyE (x y : Reg)
  /-- 9xy0, SNE Vx, Vy (R144). -/
  | op9xy0 (x y : Reg)
  /-- Annn, LD I, nnn (R191). -/
  | opAnnn (nnn : Addr12)
  /-- Bnnn, JP V0, nnn (R124). -/
  | opBnnn (nnn : Addr12)
  /-- Cxkk, RND Vx, kk (R172). -/
  | opCxkk (x : Reg) (kk : Byte)
  /-- Dxyn, DRW Vx, Vy, n (R212). -/
  | opDxyn (x y : Reg) (n : Nibble)
  /-- Ex9E, SKP Vx (R231). -/
  | opEx9E (x : Reg)
  /-- ExA1, SKNP Vx (R232). -/
  | opExA1 (x : Reg)
  /-- Fx07, LD Vx, DT (R233). -/
  | opFx07 (x : Reg)
  /-- Fx0A, LD Vx, K (R234). -/
  | opFx0A (x : Reg)
  /-- Fx15, LD DT, Vx (R235). -/
  | opFx15 (x : Reg)
  /-- Fx18, LD ST, Vx (R236). -/
  | opFx18 (x : Reg)
  /-- Fx1E, ADD I, Vx (R192). -/
  | opFx1E (x : Reg)
  /-- Fx29, LD F, Vx (R193). -/
  | opFx29 (x : Reg)
  /-- Fx33, LD B, Vx (R194). -/
  | opFx33 (x : Reg)
  /-- Fx55, LD [I], Vx (R198). -/
  | opFx55 (x : Reg)
  /-- Fx65, LD Vx, [I] (R199). -/
  | opFx65 (x : Reg)
  deriving DecidableEq, Repr

end Sys2Proof
end

