-- ==== Sys2Proof/WellFormed.lean ====
section
/-! DEFINITION. What is well formed before anything is decoded: an opcode written as its four nibbles (rule R12), and
a program image given to the loader (rule R294). The operand types of `Instr` have exactly the fields' widths, so an
`Instr` cannot be ill formed; its check is that its pattern, operands filled in, is a well-formed opcode. -/

namespace Sys2Proof

/-- An opcode as it is written, one number per hex digit, most significant first (rule R12). -/
structure Nibbles where
  t : Nat
  x : Nat
  y : Nat
  n : Nat
  deriving DecidableEq, Repr

/-- Check 1: each of the four is one hex digit. -/
def Nibbles.inRange (w : Nibbles) : Bool :=
  decide (w.t < 16) && decide (w.x < 16) && decide (w.y < 16) && decide (w.n < 16)

/-- Check 2: the digits are those of a listed instruction. This is the decode table of rule R94, on digits, and so the
complement of the list of invalid words of rule R97. -/
def Nibbles.listed (w : Nibbles) : Bool :=
  match w.t with
  | 0x0 => w.x == 0x0 && w.y == 0xE && (w.n == 0x0 || w.n == 0xE)
  | 0x5 => w.n == 0
  | 0x8 => decide (w.n ≤ 7) || w.n == 0xE
  | 0x9 => w.n == 0
  | 0xE => (w.y == 0x9 && w.n == 0xE) || (w.y == 0xA && w.n == 0x1)
  | 0xF => [0x07, 0x0A, 0x15, 0x18, 0x1E, 0x29, 0x33, 0x55, 0x65].contains (16 * w.y + w.n)
  | _ => true

/-- Both checks. -/
def Nibbles.wellFormed (w : Nibbles) : Bool := w.inRange && w.listed

/-- The 16-bit number the digits spell (rule R91: `nnn = x*256 + y*16 + n`). -/
def Nibbles.value (w : Nibbles) : Nat := 4096 * w.t + 256 * w.x + 16 * w.y + w.n

/-- The digits of a pattern `t nnn` (format A of rule R92). -/
def Nibbles.ofAddr (t : Nat) (nnn : Addr12) : Nibbles := ⟨t, nnn.toNat / 256, nnn.toNat / 16 % 16, nnn.toNat % 16⟩

/-- The digits of a pattern `t x kk` (formats XK and XS of rule R92). -/
def Nibbles.ofByte (t : Nat) (x : Reg) (kk : Byte) : Nibbles := ⟨t, x.toNat, kk.toNat / 16, kk.toNat % 16⟩

/-- The digits of a pattern `t x y n` (formats XYS and XYN of rule R92). -/
def Nibbles.ofRegs (t : Nat) (x y : Reg) (n : Nat) : Nibbles := ⟨t, x.toNat, y.toNat, n⟩

/-- An instruction's pattern (rule R96) with its operands filled in. -/
def Instr.nibbles : Instr → Nibbles
  | .op00E0 => ⟨0x0, 0x0, 0xE, 0x0⟩
  | .op00EE => ⟨0x0, 0x0, 0xE, 0xE⟩
  | .op1nnn nnn => .ofAddr 0x1 nnn
  | .op2nnn nnn => .ofAddr 0x2 nnn
  | .op3xkk x kk => .ofByte 0x3 x kk
  | .op4xkk x kk => .ofByte 0x4 x kk
  | .op5xy0 x y => .ofRegs 0x5 x y 0x0
  | .op6xkk x kk => .ofByte 0x6 x kk
  | .op7xkk x kk => .ofByte 0x7 x kk
  | .op8xy0 x y => .ofRegs 0x8 x y 0x0
  | .op8xy1 x y => .ofRegs 0x8 x y 0x1
  | .op8xy2 x y => .ofRegs 0x8 x y 0x2
  | .op8xy3 x y => .ofRegs 0x8 x y 0x3
  | .op8xy4 x y => .ofRegs 0x8 x y 0x4
  | .op8xy5 x y => .ofRegs 0x8 x y 0x5
  | .op8xy6 x y => .ofRegs 0x8 x y 0x6
  | .op8xy7 x y => .ofRegs 0x8 x y 0x7
  | .op8xyE x y => .ofRegs 0x8 x y 0xE
  | .op9xy0 x y => .ofRegs 0x9 x y 0x0
  | .opAnnn nnn => .ofAddr 0xA nnn
  | .opBnnn nnn => .ofAddr 0xB nnn
  | .opCxkk x kk => .ofByte 0xC x kk
  | .opDxyn x y n => .ofRegs 0xD x y n.toNat
  | .opEx9E x => .ofByte 0xE x 0x9E
  | .opExA1 x => .ofByte 0xE x 0xA1
  | .opFx07 x => .ofByte 0xF x 0x07
  | .opFx0A x => .ofByte 0xF x 0x0A
  | .opFx15 x => .ofByte 0xF x 0x15
  | .opFx18 x => .ofByte 0xF x 0x18
  | .opFx1E x => .ofByte 0xF x 0x1E
  | .opFx29 x => .ofByte 0xF x 0x29
  | .opFx33 x => .ofByte 0xF x 0x33
  | .opFx55 x => .ofByte 0xF x 0x55
  | .opFx65 x => .ofByte 0xF x 0x65

/-- The instruction's own check; the operand types make it hold of every term (Laws/PerInstr.lean). -/
def Instr.wellFormed (i : Instr) : Bool := i.nibbles.wellFormed

/-- Check 3: a program image fits between the load address and the end of memory (rule R294). -/
def imageWellFormed (program : List Byte) : Bool :=
  decide (program.length + Config.programBase ≤ Config.memSize)

end Sys2Proof
end

