-- ==== Sys2Proof/Decode.lean ====
section
/-! DEFINITION. The decoder (rules R90 to R99), total on any bytes and rejecting by name, and after it the encoder and
the opcode map of rule R96 as a table of rows. Decoding depends on the opcode bits alone (rule R94). -/

namespace Sys2Proof

/-- Why bytes are not an instruction. -/
inductive DecodeError where
  /-- Fewer than two bytes: no 16-bit opcode can be formed (rule R90). -/
  | truncated
  /-- The word matches no row of rule R96 (rule R97); it carries the raw word. -/
  | invalid (op : Word16)
  deriving DecidableEq, Repr

/-! ### Fields (rule R91) -/

/-- `t`, bits 15 to 12: the family. -/
def fieldT (op : Word16) : Nibble := op.extractLsb' 12 4

/-- `x`, bits 11 to 8. -/
def fieldX (op : Word16) : Reg := op.extractLsb' 8 4

/-- `y`, bits 7 to 4. -/
def fieldY (op : Word16) : Reg := op.extractLsb' 4 4

/-- `n`, bits 3 to 0. -/
def fieldN (op : Word16) : Nibble := op.extractLsb' 0 4

/-- `nnn`, bits 11 to 0. -/
def fieldNNN (op : Word16) : Addr12 := op.extractLsb' 0 12

/-- `kk`, bits 7 to 0. -/
def fieldKK (op : Word16) : Byte := op.extractLsb' 0 8

/-! ### Decoding (rule R94) -/

/-- Family 0x0: the whole word decides. -/
def decode0 (op : Word16) : Except DecodeError Instr :=
  if op = 0x00E0#16 then .ok .op00E0
  else if op = 0x00EE#16 then .ok .op00EE
  else .error (.invalid op)

/-- Family 0x8: the low nibble decides. -/
def decode8 (op : Word16) : Except DecodeError Instr :=
  let x := fieldX op
  let y := fieldY op
  match fieldN op with
  | 0x0#4 => .ok (.op8xy0 x y)
  | 0x1#4 => .ok (.op8xy1 x y)
  | 0x2#4 => .ok (.op8xy2 x y)
  | 0x3#4 => .ok (.op8xy3 x y)
  | 0x4#4 => .ok (.op8xy4 x y)
  | 0x5#4 => .ok (.op8xy5 x y)
  | 0x6#4 => .ok (.op8xy6 x y)
  | 0x7#4 => .ok (.op8xy7 x y)
  | 0xE#4 => .ok (.op8xyE x y)
  | _ => .error (.invalid op)

/-- Family 0xE: the low byte decides. -/
def decodeE (op : Word16) : Except DecodeError Instr :=
  let x := fieldX op
  match fieldKK op with
  | 0x9E#8 => .ok (.opEx9E x)
  | 0xA1#8 => .ok (.opExA1 x)
  | _ => .error (.invalid op)

/-- Family 0xF: the low byte decides. -/
def decodeF (op : Word16) : Except DecodeError Instr :=
  let x := fieldX op
  match fieldKK op with
  | 0x07#8 => .ok (.opFx07 x)
  | 0x0A#8 => .ok (.opFx0A x)
  | 0x15#8 => .ok (.opFx15 x)
  | 0x18#8 => .ok (.opFx18 x)
  | 0x1E#8 => .ok (.opFx1E x)
  | 0x29#8 => .ok (.opFx29 x)
  | 0x33#8 => .ok (.opFx33 x)
  | 0x55#8 => .ok (.opFx55 x)
  | 0x65#8 => .ok (.opFx65 x)
  | _ => .error (.invalid op)

/-- The decode procedure of rule R94, by family nibble and then by sub-key. -/
def decodeWord (op : Word16) : Except DecodeError Instr :=
  let x := fieldX op
  let y := fieldY op
  match fieldT op with
  | 0x0#4 => decode0 op
  | 0x1#4 => .ok (.op1nnn (fieldNNN op))
  | 0x2#4 => .ok (.op2nnn (fieldNNN op))
  | 0x3#4 => .ok (.op3xkk x (fieldKK op))
  | 0x4#4 => .ok (.op4xkk x (fieldKK op))
  | 0x5#4 => if fieldN op = 0#4 then .ok (.op5xy0 x y) else .error (.invalid op)
  | 0x6#4 => .ok (.op6xkk x (fieldKK op))
  | 0x7#4 => .ok (.op7xkk x (fieldKK op))
  | 0x8#4 => decode8 op
  | 0x9#4 => if fieldN op = 0#4 then .ok (.op9xy0 x y) else .error (.invalid op)
  | 0xA#4 => .ok (.opAnnn (fieldNNN op))
  | 0xB#4 => .ok (.opBnnn (fieldNNN op))
  | 0xC#4 => .ok (.opCxkk x (fieldKK op))
  | 0xD#4 => .ok (.opDxyn x y (fieldN op))
  | 0xE#4 => decodeE op
  | 0xF#4 => decodeF op
  | _ => .error (.invalid op)

/-- The opcode two memory bytes form, the one at the lower address first: big-endian (rule R60). -/
def wordOfBytes (hi lo : Byte) : Word16 := hi ++ lo

/-- The two bytes of an opcode in memory order: bits 15 to 8 first (rules R60, R91). -/
def bytesOfWord (op : Word16) : List Byte := [op.extractLsb' 8 8, op.extractLsb' 0 8]

/-- Decode the instruction at the front of a byte sequence and give the rest; every instruction is two bytes (R90). -/
def decodeBytes : List Byte → Except DecodeError (Instr × List Byte)
  | hi :: lo :: rest =>
    match decodeWord (wordOfBytes hi lo) with
    | .ok i => .ok (i, rest)
    | .error e => .error e
  | _ => .error .truncated

/-! ### Encoding: the six formats of rule R92 and the map of rule R96 -/

/-- Format A: `t[15:12] nnn[11:0]`. -/
def wordA (t : Nibble) (nnn : Addr12) : Word16 := t ++ nnn

/-- Formats XK and XS: `t[15:12] x[11:8]` and a low byte, an immediate or a sub-opcode. -/
def wordXK (t : Nibble) (x : Reg) (low : Byte) : Word16 := t ++ x ++ low

/-- Formats XYS and XYN: `t[15:12] x[11:8] y[7:4]` and a low nibble, a sub-opcode or a count. -/
def wordXY (t : Nibble) (x y : Reg) (low : Nibble) : Word16 := t ++ x ++ y ++ low

/-- The 16-bit word of an instruction. -/
def encode : Instr → Word16
  | .op00E0 => 0x00E0#16
  | .op00EE => 0x00EE#16
  | .op1nnn nnn => wordA 0x1#4 nnn
  | .op2nnn nnn => wordA 0x2#4 nnn
  | .op3xkk x kk => wordXK 0x3#4 x kk
  | .op4xkk x kk => wordXK 0x4#4 x kk
  | .op5xy0 x y => wordXY 0x5#4 x y 0x0#4
  | .op6xkk x kk => wordXK 0x6#4 x kk
  | .op7xkk x kk => wordXK 0x7#4 x kk
  | .op8xy0 x y => wordXY 0x8#4 x y 0x0#4
  | .op8xy1 x y => wordXY 0x8#4 x y 0x1#4
  | .op8xy2 x y => wordXY 0x8#4 x y 0x2#4
  | .op8xy3 x y => wordXY 0x8#4 x y 0x3#4
  | .op8xy4 x y => wordXY 0x8#4 x y 0x4#4
  | .op8xy5 x y => wordXY 0x8#4 x y 0x5#4
  | .op8xy6 x y => wordXY 0x8#4 x y 0x6#4
  | .op8xy7 x y => wordXY 0x8#4 x y 0x7#4
  | .op8xyE x y => wordXY 0x8#4 x y 0xE#4
  | .op9xy0 x y => wordXY 0x9#4 x y 0x0#4
  | .opAnnn nnn => wordA 0xA#4 nnn
  | .opBnnn nnn => wordA 0xB#4 nnn
  | .opCxkk x kk => wordXK 0xC#4 x kk
  | .opDxyn x y n => wordXY 0xD#4 x y n
  | .opEx9E x => wordXK 0xE#4 x 0x9E#8
  | .opExA1 x => wordXK 0xE#4 x 0xA1#8
  | .opFx07 x => wordXK 0xF#4 x 0x07#8
  | .opFx0A x => wordXK 0xF#4 x 0x0A#8
  | .opFx15 x => wordXK 0xF#4 x 0x15#8
  | .opFx18 x => wordXK 0xF#4 x 0x18#8
  | .opFx1E x => wordXK 0xF#4 x 0x1E#8
  | .opFx29 x => wordXK 0xF#4 x 0x29#8
  | .opFx33 x => wordXK 0xF#4 x 0x33#8
  | .opFx55 x => wordXK 0xF#4 x 0x55#8
  | .opFx65 x => wordXK 0xF#4 x 0x65#8

/-- The two bytes of an instruction as it stands in memory. -/
def encodeBytes (i : Instr) : List Byte := bytesOfWord (encode i)

/-- One row of the opcode map: a word is the row's instruction exactly when `op AND mask = bits` (rule R96). -/
structure Row where
  pattern : String
  mask : Word16
  bits : Word16
  deriving DecidableEq, Repr

/-- Whether a word matches a row. -/
def Row.matchesWord (r : Row) (op : Word16) : Bool := op &&& r.mask == r.bits

/-- The row of an instruction: mask and match columns of rule R96. -/
def Instr.row : Instr → Row
  | .op00E0 => ⟨"00E0", 0xFFFF, 0x00E0⟩
  | .op00EE => ⟨"00EE", 0xFFFF, 0x00EE⟩
  | .op1nnn _ => ⟨"1nnn", 0xF000, 0x1000⟩
  | .op2nnn _ => ⟨"2nnn", 0xF000, 0x2000⟩
  | .op3xkk _ _ => ⟨"3xkk", 0xF000, 0x3000⟩
  | .op4xkk _ _ => ⟨"4xkk", 0xF000, 0x4000⟩
  | .op5xy0 _ _ => ⟨"5xy0", 0xF00F, 0x5000⟩
  | .op6xkk _ _ => ⟨"6xkk", 0xF000, 0x6000⟩
  | .op7xkk _ _ => ⟨"7xkk", 0xF000, 0x7000⟩
  | .op8xy0 _ _ => ⟨"8xy0", 0xF00F, 0x8000⟩
  | .op8xy1 _ _ => ⟨"8xy1", 0xF00F, 0x8001⟩
  | .op8xy2 _ _ => ⟨"8xy2", 0xF00F, 0x8002⟩
  | .op8xy3 _ _ => ⟨"8xy3", 0xF00F, 0x8003⟩
  | .op8xy4 _ _ => ⟨"8xy4", 0xF00F, 0x8004⟩
  | .op8xy5 _ _ => ⟨"8xy5", 0xF00F, 0x8005⟩
  | .op8xy6 _ _ => ⟨"8xy6", 0xF00F, 0x8006⟩
  | .op8xy7 _ _ => ⟨"8xy7", 0xF00F, 0x8007⟩
  | .op8xyE _ _ => ⟨"8xyE", 0xF00F, 0x800E⟩
  | .op9xy0 _ _ => ⟨"9xy0", 0xF00F, 0x9000⟩
  | .opAnnn _ => ⟨"Annn", 0xF000, 0xA000⟩
  | .opBnnn _ => ⟨"Bnnn", 0xF000, 0xB000⟩
  | .opCxkk _ _ => ⟨"Cxkk", 0xF000, 0xC000⟩
  | .opDxyn _ _ _ => ⟨"Dxyn", 0xF000, 0xD000⟩
  | .opEx9E _ => ⟨"Ex9E", 0xF0FF, 0xE09E⟩
  | .opExA1 _ => ⟨"ExA1", 0xF0FF, 0xE0A1⟩
  | .opFx07 _ => ⟨"Fx07", 0xF0FF, 0xF007⟩
  | .opFx0A _ => ⟨"Fx0A", 0xF0FF, 0xF00A⟩
  | .opFx15 _ => ⟨"Fx15", 0xF0FF, 0xF015⟩
  | .opFx18 _ => ⟨"Fx18", 0xF0FF, 0xF018⟩
  | .opFx1E _ => ⟨"Fx1E", 0xF0FF, 0xF01E⟩
  | .opFx29 _ => ⟨"Fx29", 0xF0FF, 0xF029⟩
  | .opFx33 _ => ⟨"Fx33", 0xF0FF, 0xF033⟩
  | .opFx55 _ => ⟨"Fx55", 0xF0FF, 0xF055⟩
  | .opFx65 _ => ⟨"Fx65", 0xF0FF, 0xF065⟩

/-- The opcode map: the rows of rule R96 in its order, one instruction standing for each pattern. -/
def opcodeMap : List Row :=
  ([.op00E0, .op00EE, .op1nnn 0, .op2nnn 0, .op3xkk 0 0, .op4xkk 0 0, .op5xy0 0 0, .op6xkk 0 0, .op7xkk 0 0] ++
   [.op8xy0 0 0, .op8xy1 0 0, .op8xy2 0 0, .op8xy3 0 0, .op8xy4 0 0, .op8xy5 0 0, .op8xy6 0 0, .op8xy7 0 0,
    .op8xyE 0 0] ++
   [.op9xy0 0 0, .opAnnn 0, .opBnnn 0, .opCxkk 0 0, .opDxyn 0 0 0, .opEx9E 0, .opExA1 0] ++
   [.opFx07 0, .opFx0A 0, .opFx15 0, .opFx18 0, .opFx1E 0, .opFx29 0, .opFx33 0, .opFx55 0, .opFx65 0]
    : List Instr).map Instr.row

/-- The bits of an opcode-table row as the hardware stores them: one 16-bit word, its high byte at the lower address. -/
def tableBytes (nbits w : Nat) : List Byte := bytesOfWord (BitVec.ofNat 16 (w % 2 ^ nbits))

/-- What this decoder reads from an instruction whose bits, numbered as spec/opcode_table.json numbers them, are `w`. -/
def decodeTableWord (nbits w : Nat) : Option Instr :=
  match decodeBytes (tableBytes nbits w) with
  | .ok (i, _) => some i
  | .error _ => none

end Sys2Proof
end

