-- ==== Sys2Proof/Machine/State.lean ====
section
/-! DEFINITION. The machine's state as plain data (rule R20: ten items, and nothing else persists), the reasons a step
can stop (rule R250) and the state after reset (rule R47). -/

namespace Sys2Proof.Machine

/-- `KW`, the key-wait latch (rule R40). `key` keeps its last value while `latched` is false. -/
structure KeyWait where
  latched : Bool
  key : Key
  deriving DecidableEq, Repr

/-- The architectural state of rule R20, in its order, and after it the model's own two fields for the random-byte
input (rule R276, assumption 4). -/
structure State where
  /-- `MEM`, rule R42, as (address, byte) pairs in the canonical form of `memWf`; an address not listed reads as
  `unlisted` says, so the empty list is memory after reset. -/
  mem : List Host.Cell
  /-- `V[0]` to `V[15]`, rule R21; `V[15]` is VF (rule R27). -/
  v : Vector Byte 16
  /-- `I`, the index register, rule R28. -/
  i : BitVec Config.iWidth
  /-- `pc`, rules R24 and R26. -/
  pc : Word16
  /-- `SP`, a byte offset 0 to 64, rule R30. -/
  sp : Fin (Config.spLimit + 1)
  /-- `STACK`, 32 slots, a store of its own, rule R31. -/
  stack : Vector Word16 Config.stackDepth
  /-- `DT`, the delay timer, rule R32. -/
  dt : Byte
  /-- `ST`, the sound timer, rule R33. -/
  st : Byte
  /-- `KEYS`, bit `k` set while key `k` is held, rule R34. -/
  keys : Word16
  /-- `KW`, rule R40. -/
  kw : KeyWait
  /-- The model's own: the bytes the host has put on the `rand` input and no Cxkk has drawn, oldest first
  (rules R50, R276). -/
  randIn : List Byte
  /-- The model's own: how many free random bytes were drawn; it picks the next one (assumption 4). -/
  draws : Nat
  deriving DecidableEq, Repr

/-- The fault statuses of `step()`, the closed set of rule R250 without `Ok`; each carries its 16-bit `info`. A fault
leaves the state as it was (rule R252), and the machine goes no further (rule R253). -/
inductive Fault where
  /-- Code 1, R255: the fetched word matches no instruction. Raised by decode. Carries the word. Safe. -/
  | invalidInstruction (op : Word16)
  /-- Code 2, R256: 2nnn with the stack full. Carries the opcode. Safe: another core might carry on. -/
  | stackOverflow (op : Word16)
  /-- Code 3, R256: 00EE with the stack empty. Carries the opcode. Safe. -/
  | stackUnderflow (op : Word16)
  /-- Code 4, R254: `pc > 0xFFE` at the start of a step. Raised by fetch. Carries `pc`. Safe. -/
  | fetchOutOfRange (pc : Word16)
  /-- Code 5, R257: a data address above 0xFFF. Raised by Dxyn, Fx33, Fx55, Fx65. Carries the opcode. Safe. -/
  | addressOutOfRange (op : Word16)
  /-- Code 6, R258: a store address below 0x050. Raised by Fx33, Fx55. Carries the opcode. Safe. -/
  | fontWrite (op : Word16)
  /-- Code 7, R259: a key index above 15. Raised by Ex9E, ExA1. Carries the opcode. Safe. -/
  | keyIndexOutOfRange (op : Word16)
  deriving DecidableEq, Repr

/-- Why the model has no meaning for an instruction. -/
inductive Refusal where
  /-- Raised by an arm of `exec` for an instruction with no meaning yet, named as the opcode table names it. Safe.
  Every instruction of this hardware has its meaning, so no arm raises it. -/
  | notModelled (mnemonic : String)
  deriving DecidableEq, Repr

/-- The state right after reset (rules R47, R290): the font in place and all else zero, `pc` at 0x200. The two fields
of the model's own stand at "no byte on the input, none drawn" (assumption 4). -/
def State.reset : State :=
  { mem := []
    v := Vector.replicate 16 0
    i := 0
    pc := 0x0200
    sp := 0
    stack := Vector.replicate Config.stackDepth 0
    dt := 0
    st := 0
    keys := 0
    kw := { latched := false, key := 0 }
    randIn := []
    draws := 0 }

end Sys2Proof.Machine
end

