-- ==== Sys2Proof/Machine/Ops.lean ====
section
/-! DEFINITION. The named operations every meaning is written with: memory, registers, program counter, stack, timers,
key-wait latch, random byte, and the raising of a fault. -/

namespace Sys2Proof.Machine

/-! ### Memory (rules R42, R60 to R67) -/

/-- What an address not listed reads as: the reset contents, `FONT` below 0x050 and zero elsewhere (rule R47). -/
def unlisted (a : Nat) : Byte := if a < Config.fontEnd then Config.fontByte a else 0

/-- `MEM[a]`, one byte. Callers check `a ≤ 0xFFF` first (rule R13). -/
def memRead : List Host.Cell → Nat → Byte
  | [], a => unlisted a
  | (k, b) :: m, a => if k = a then b else memRead m a

/-- The entry for byte `b` at `a`, none where `a` reads as `b` unlisted. -/
def memCell (a : Nat) (b : Byte) : List Host.Cell := if b = unlisted a then [] else [(a, b)]

/-- Replace or insert the entry of `a`, keeping addresses rising. -/
def memPut : List Host.Cell → Nat → Byte → List Host.Cell
  | [], a, b => memCell a b
  | (k, c) :: m, a, b =>
    if k < a then (k, c) :: memPut m a b
    else if k = a then memCell a b ++ m
    else memCell a b ++ (k, c) :: m

/-- `MEM[a] <- b`, one byte. Callers check `a ≤ 0xFFF` first (rule R13); there is nothing to write above it. -/
def memWrite (m : List Host.Cell) (a : Nat) (b : Byte) : List Host.Cell :=
  if a < Config.memSize then memPut m a b else m

/-- Write bytes at ascending addresses from `a` (rule R76). -/
def memWriteBytes (m : List Host.Cell) (a : Nat) : List Byte → List Host.Cell
  | [] => m
  | b :: bs => memWriteBytes (memWrite m a b) (a + 1) bs

/-- The canonical form from address `lo` up: addresses strictly rising and inside memory, no entry equal to what its
address reads as unlisted. -/
def memWfFrom (lo : Nat) : List Host.Cell → Bool
  | [] => true
  | (k, b) :: m => decide (lo ≤ k) && decide (k < Config.memSize) && decide (b ≠ unlisted k) && memWfFrom (k + 1) m

/-- The canonical form of memory: equal memories are equal lists. -/
def memWf (m : List Host.Cell) : Bool := memWfFrom 0 m

/-- The 16-bit opcode at `a`: high byte at the lower address (rule R60). -/
def memReadWord (m : List Host.Cell) (a : Nat) : Word16 := wordOfBytes (memRead m a) (memRead m (a + 1))

/-! ### Registers and program counter (rules R21, R25, R26) -/

/-- Read `V[r]`. -/
def getReg (s : State) (r : Reg) : Byte := s.v[r.toNat]'r.isLt

/-- `V[r] <- b`. -/
def setReg (s : State) (r : Reg) (b : Byte) : State := { s with v := s.v.set r.toNat b r.isLt }

/-- `pc <- target`. -/
def setPc (s : State) (target : Word16) : State := { s with pc := target }

/-- The sequential successor: `pc <- pc0 + 2`, 16-bit (rules R25, R26). -/
def advance (s : State) : State := setPc s (s.pc + 2)

/-- A skip (rule R140): `pc <- pc0 + 4` when the condition holds, else `pc0 + 2`. -/
def skipIf (c : Bool) (s : State) : State := setPc s (if c then s.pc + 4 else s.pc + 2)

/-- `I <- value`. -/
def setIndex (s : State) (value : BitVec Config.iWidth) : State := { s with i := value }

/-- Replace memory. -/
def setMem (s : State) (m : List Host.Cell) : State := { s with mem := m }

/-- `DT <- b`. -/
def setDelay (s : State) (b : Byte) : State := { s with dt := b }

/-- `ST <- b`. -/
def setSound (s : State) (b : Byte) : State := { s with st := b }

/-- `KEYS <- mask`. -/
def setKeys (s : State) (mask : Word16) : State := { s with keys := mask }

/-- `KW <- kw`. -/
def setWait (s : State) (kw : KeyWait) : State := { s with kw := kw }

/-! ### The return stack (rules R30, R31, R121, R123) -/

/-- Push: `STACK[SP div 2] <- a; SP <- SP + 2`; none when there is no free slot. For the even `SP` of every reachable
state that is `SP = 64`; see assumption 6 for an odd one. -/
def pushReturn (s : State) (a : Word16) : Option State :=
  if h : s.sp.val + 2 ≤ Config.spLimit then
    some { s with stack := s.stack.set (s.sp.val / 2) a (by simp only [Config.spLimit] at h; omega),
                  sp := ⟨s.sp.val + 2, by omega⟩ }
  else none

/-- Pop: `SP <- SP - 2; a <- STACK[SP div 2]`; none when nothing is on the stack. For an even `SP` that is `SP = 0`. -/
def popReturn (s : State) : Option (Word16 × State) :=
  if h : 2 ≤ s.sp.val then
    some (s.stack[(s.sp.val - 2) / 2]'(by have := s.sp.isLt; simp only [Config.spLimit] at this; omega),
          { s with sp := ⟨s.sp.val - 2, by omega⟩ })
  else none

/-! ### The random byte (rule R276) -/

/-- The byte the next Cxkk draws: the oldest one on the host's input, or a free value. -/
def randomByte (s : State) : Byte :=
  match s.randIn with
  | r :: _ => r
  | [] => Config.freeRandomByte s.draws

/-- The state once that byte is drawn: gone from the input, or one more free byte used up. -/
def drawRandom (s : State) : State :=
  { s with randIn := s.randIn.tail, draws := if s.randIn.isEmpty then s.draws + 1 else s.draws }

/-! ### Faults (rules R252, R264) -/

/-- The step ends with a fault. This is all that "taking an exception" is on this hardware: no state is saved or
changed, there is no handler, no vector, no mode, and no return instruction (rules R252, R264, R265). -/
def raise (f : Fault) : Host.Outcome State Fault Refusal := .fault f

/-- Every check comes before every write (rule R252): raise the fault if there is one, else go on to `t`. -/
def guarded (f : Option Fault) (t : State) : Host.Outcome State Fault Refusal :=
  match f with
  | some f => raise f
  | none => .next t

/-- The numeric status code (rules R250, R251). -/
def faultCode : Fault → Nat
  | .invalidInstruction _ => 1
  | .stackOverflow _ => 2
  | .stackUnderflow _ => 3
  | .fetchOutOfRange _ => 4
  | .addressOutOfRange _ => 5
  | .fontWrite _ => 6
  | .keyIndexOutOfRange _ => 7

/-- The 16-bit `info` of a status (rule R250). -/
def faultInfo : Fault → Word16
  | .invalidInstruction op => op
  | .stackOverflow op => op
  | .stackUnderflow op => op
  | .fetchOutOfRange pc => pc
  | .addressOutOfRange op => op
  | .fontWrite op => op
  | .keyIndexOutOfRange op => op

end Sys2Proof.Machine
end

