-- ==== Sys2Proof/Machine/Flags.lean ====
section
/-! DEFINITION. Every flag computation (rules R27, R160, R175): VF is the only flag, written 0 or 1; and the two orders
in which an instruction's result and flag are written. -/

namespace Sys2Proof.Machine

/-- A flag as VF holds it. -/
def flagByte (c : Bool) : Byte := if c then 1 else 0

/-- Carry of 8xy4: 1 when the 9-bit sum exceeds 255 (rule R167). -/
def carryFlag (a b : Byte) : Byte := flagByte (decide (a.toNat + b.toNat > 255))

/-- Not-borrow of `a - b`: 1 when `a ≥ b` (rules R168, R170). -/
def noBorrowFlag (a b : Byte) : Byte := flagByte (decide (a.toNat ≥ b.toNat))

/-- The bit 8xy6 shifts out: bit 0 (rule R169). -/
def lowBitFlag (a : Byte) : Byte := flagByte (a.getLsbD 0)

/-- The bit 8xyE shifts out: bit 7 (rule R171). -/
def highBitFlag (a : Byte) : Byte := flagByte (a.getLsbD 7)

/-- The order of 8xy4: Vx first, then VF, so with `x = 15` the flag stands (rules R27, R180). -/
def resultThenFlag (s : State) (x : Reg) (result flag : Byte) : State := setReg (setReg s x result) VF flag

/-- The order of 8xy5, 8xy6, 8xy7, 8xyE: VF first, then Vx, so with `x = 15` the result stands (rules R27, R180). -/
def flagThenResult (s : State) (x : Reg) (result flag : Byte) : State := setReg (setReg s VF flag) x result

end Sys2Proof.Machine
end

