-- ==== Sys2Proof/Machine/Alu.lean ====
section
/-! DEFINITION. Register load, arithmetic, logic, shift and random: 6xkk, 7xkk, 8xy0 to 8xyE, Cxkk (rules R160 to R175,
R180). Both operands are read from the state before the step (rule R14). -/

namespace Sys2Proof.Machine

/-- 6xkk (rule R161). -/
def exec6xkk (x : Reg) (kk : Byte) (s : State) : Host.Outcome State Fault Refusal :=
  .next (advance (setReg s x kk))

/-- 7xkk (rule R162): modulo 256, no flag. -/
def exec7xkk (x : Reg) (kk : Byte) (s : State) : Host.Outcome State Fault Refusal :=
  .next (advance (setReg s x (getReg s x + kk)))

/-- 8xy0 (rule R163). -/
def exec8xy0 (x y : Reg) (s : State) : Host.Outcome State Fault Refusal :=
  .next (advance (setReg s x (getReg s y)))

/-- 8xy1 (rule R164). -/
def exec8xy1 (x y : Reg) (s : State) : Host.Outcome State Fault Refusal :=
  .next (advance (setReg s x (getReg s x ||| getReg s y)))

/-- 8xy2 (rule R165). -/
def exec8xy2 (x y : Reg) (s : State) : Host.Outcome State Fault Refusal :=
  .next (advance (setReg s x (getReg s x &&& getReg s y)))

/-- 8xy3 (rule R166). -/
def exec8xy3 (x y : Reg) (s : State) : Host.Outcome State Fault Refusal :=
  .next (advance (setReg s x (getReg s x ^^^ getReg s y)))

/-- 8xy4 (rule R167). -/
def exec8xy4 (x y : Reg) (s : State) : Host.Outcome State Fault Refusal :=
  .next (advance (resultThenFlag s x (getReg s x + getReg s y) (carryFlag (getReg s x) (getReg s y))))

/-- 8xy5 (rule R168). -/
def exec8xy5 (x y : Reg) (s : State) : Host.Outcome State Fault Refusal :=
  .next (advance (flagThenResult s x (getReg s x - getReg s y) (noBorrowFlag (getReg s x) (getReg s y))))

/-- 8xy6 (rule R169): shifts Vx in place; `_y` is ignored (rule R99). -/
def exec8xy6 (x _y : Reg) (s : State) : Host.Outcome State Fault Refusal :=
  .next (advance (flagThenResult s x (getReg s x >>> 1) (lowBitFlag (getReg s x))))

/-- 8xy7 (rule R170). -/
def exec8xy7 (x y : Reg) (s : State) : Host.Outcome State Fault Refusal :=
  .next (advance (flagThenResult s x (getReg s y - getReg s x) (noBorrowFlag (getReg s y) (getReg s x))))

/-- 8xyE (rule R171): shifts Vx in place; `_y` is ignored (rule R99). -/
def exec8xyE (x _y : Reg) (s : State) : Host.Outcome State Fault Refusal :=
  .next (advance (flagThenResult s x (getReg s x <<< 1) (highBitFlag (getReg s x))))

/-- Cxkk (rule R172): draws exactly one random byte. -/
def execCxkk (x : Reg) (kk : Byte) (s : State) : Host.Outcome State Fault Refusal :=
  .next (advance (setReg (drawRandom s) x (randomByte s &&& kk)))

end Sys2Proof.Machine
end

