-- ==== Sys2Proof/Machine/Operands.lean ====
section
/-! DEFINITION. Every operand form: immediates (rule R93), the one addressing mode `EA = I + k` with its range and
font checks (rules R66, R67, R190), index-register values (rules R191 to R193), key indices (rules R231, R238) and the
byte blocks the memory instructions move (rules R194, R198, R199). -/

namespace Sys2Proof.Machine

/-! ### Immediates and jump targets (rule R93) -/

/-- `zext_16(nnn)`. -/
def addrTarget (nnn : Addr12) : Word16 := nnn.setWidth 16

/-- `zext_16(nnn) + zext_16(v0)`, not masked to 12 bits (rule R124). -/
def offsetTarget (nnn : Addr12) (v0 : Byte) : Word16 := nnn.setWidth 16 + v0.setWidth 16

/-! ### Index-register values, at any width `w` of `I` (rule R28) -/

/-- `nnn` zero-extended to the index register (rule R191). -/
def indexImm (w : Nat) (nnn : Addr12) : BitVec w := nnn.setWidth w

/-- `(i0 + zext(vx)) mod 2^w` (rule R192). -/
def indexAdd (w : Nat) (i0 : BitVec w) (vx : Byte) : BitVec w := BitVec.ofNat w (i0.toNat + vx.toNat)

/-- `font_base + 5 * vx`, `vx` not masked (rule R193). -/
def glyphIndex (w : Nat) (vx : Byte) : BitVec w := BitVec.ofNat w (Config.fontBase + 5 * vx.toNat)

/-! ### Addressing (rule R190) -/

/-- `EA = i0 + k`, an unbounded natural number, never wrapped (rules R66, R190). -/
def effAddr (s : State) (k : Nat) : Nat := s.i.toNat + k

/-- Whether `count` bytes from `EA = I` lie in memory; no byte at all always does (rules R66, R216). -/
def blockInRange (s : State) (count : Nat) : Bool :=
  count == 0 || decide (effAddr s (count - 1) ≤ Config.lastAddr)

/-- The fault of reading `count` bytes through `I`, if any (rule R257). -/
def loadFault (op : Word16) (count : Nat) (s : State) : Option Fault :=
  if blockInRange s count then none else some (.addressOutOfRange op)

/-- The fault of storing `count` bytes through `I`, if any: out of range, else into the font (rules R257, R258). -/
def storeFault (op : Word16) (count : Nat) (s : State) : Option Fault :=
  if blockInRange s count then
    if effAddr s 0 < Config.fontEnd then some (.fontWrite op) else none
  else some (.addressOutOfRange op)

/-! ### Byte blocks -/

/-- The decimal digits of a byte: hundreds, tens, ones (rule R194). -/
def bcdDigits (b : Byte) : List Byte :=
  [BitVec.ofNat 8 (b.toNat / 100), BitVec.ofNat 8 (b.toNat / 10 % 10), BitVec.ofNat 8 (b.toNat % 10)]

/-- How many registers V0 to Vx are (rules R198, R199). -/
def blockLength (x : Reg) : Nat := x.toNat + 1

/-- The values of V0 to Vx, V0 first (rule R198). -/
def regBlock (s : State) (x : Reg) : List Byte := s.v.toList.take (blockLength x)

/-- V0 to Vx loaded from `MEM[I + k]`, the registers above Vx kept (rule R199). -/
def loadRegs (s : State) (x : Reg) : State :=
  { s with v := Vector.ofFn fun k : Fin 16 => if k.val ≤ x.toNat then memRead s.mem (effAddr s k.val) else s.v[k.val] }

/-! ### Keys -/

/-- The key a register names, none above 15: the whole byte is the index (rule R231). -/
def keyIndex (b : Byte) : Option Key := if b.toNat ≤ 15 then some (b.setWidth 4) else none

/-- `KEYS[k] = 1`. -/
def keyHeld (keys : Word16) (k : Key) : Bool := keys.getLsbD k.toNat

/-- `lowest(KEYS)`: the smallest `k` with `KEYS[k] = 1` (rule R238). Used only when `KEYS ≠ 0`. -/
def lowestKey (keys : Word16) : Key := BitVec.ofNat 4 (((List.range 16).find? fun k => keys.getLsbD k).getD 0)

end Sys2Proof.Machine
end

