-- ==== Sys2Proof/Machine/Display.lean ====
section
/-! DEFINITION. The display and the sprite engine: 00E0, Dxyn (rules R44, R62, R210 to R217). -/

namespace Sys2Proof.Machine

/-- The address of the display byte that holds pixel `(px, py)` (rule R44). -/
def pixelAddr (px py : Nat) : Nat := Config.displayBase + 8 * py + px / 8

/-- The one-bit mask of pixel column `px` in its byte, most significant bit leftmost (rules R44, R62, R212). -/
def pixelMask (px : Nat) : Byte := 0x80#8 >>> (px % 8)

/-- Whether pixel `(px, py)` is lit: bit `7 - (px mod 8)` of its byte (rule R44). -/
def pixelLit (m : List Host.Cell) (px py : Nat) : Bool := (memRead m (pixelAddr px py)).getLsbD (7 - px % 8)

/-- What the sprite engine carries from pixel to pixel: memory and the collision output. -/
structure Canvas where
  mem : List Host.Cell
  hit : Bool
  deriving DecidableEq, Repr

/-- Visit one set source pixel (rules R212, R215): a lit destination is a collision, and the pixel is toggled. -/
def togglePixel (c : Canvas) (px py : Nat) : Canvas :=
  let a := pixelAddr px py
  let d := memRead c.mem a
  { mem := memWrite c.mem a (d ^^^ pixelMask px), hit := c.hit || (d &&& pixelMask px) != 0 }

/-- Column `col` of a sprite row `b` drawn on display row `py`: source bit `7 - col`, the column wrapped modulo 64
(rules R212, R213). A source bit of 0 does nothing (rule R215). -/
def drawColumn (b : Byte) (vx py : Nat) (c : Canvas) (col : Nat) : Canvas :=
  if b.getLsbD (7 - col) then togglePixel c ((vx + col) % 64) py else c

/-- The eight columns of a sprite row, bit 7 first (rule R214). -/
def drawRow (b : Byte) (vx py : Nat) (c : Canvas) : Canvas := (List.range 8).foldl (drawColumn b vx py) c

/-- Row `row` of the sprite at `i0`: its byte is read once, after every earlier row was written (rules R214, R217);
the display row is wrapped modulo 32 (rule R213). -/
def drawSpriteRow (i0 vx vy : Nat) (c : Canvas) (row : Nat) : Canvas :=
  drawRow (memRead c.mem (i0 + row)) vx ((vy + row) % 32) c

/-- The `n` rows in ascending order, the collision output starting at 0 (rules R212, R214). -/
def drawSprite (m : List Host.Cell) (i0 vx vy n : Nat) : Canvas :=
  (List.range n).foldl (drawSpriteRow i0 vx vy) { mem := m, hit := false }

/-- 00E0 (rule R211). -/
def exec00E0 (s : State) : Host.Outcome State Fault Refusal :=
  .next (advance (setMem s (memWriteBytes s.mem Config.displayBase (List.replicate Config.displaySize 0))))

/-- Dxyn (rule R212): the coordinates are latched before VF is written; VF ends 1 exactly on a collision. -/
def execDxyn (x y : Reg) (n : Nibble) (s : State) : Host.Outcome State Fault Refusal :=
  let c := drawSprite s.mem (effAddr s 0) (getReg s x).toNat (getReg s y).toNat n.toNat
  guarded (loadFault (encode (.opDxyn x y n)) n.toNat s)
    (advance (setReg (setMem s c.mem) VF (flagByte c.hit)))

end Sys2Proof.Machine
end

