-- ==== Sys2Proof/Machine/Flow.lean ====
section
/-! DEFINITION. Control transfer: 00EE, 1nnn, 2nnn, Bnnn (rules R121 to R124). -/

namespace Sys2Proof.Machine

/-- 00EE (rule R121): pop the address of the call and continue after it. -/
def exec00EE (s : State) : Host.Outcome State Fault Refusal :=
  match popReturn s with
  | some (a, s') => .next (setPc s' (a + 2))
  | none => raise (.stackUnderflow (encode .op00EE))

/-- 1nnn (rule R122). -/
def exec1nnn (nnn : Addr12) (s : State) : Host.Outcome State Fault Refusal :=
  .next (setPc s (addrTarget nnn))

/-- 2nnn (rule R123): push the address of this instruction and jump. -/
def exec2nnn (nnn : Addr12) (s : State) : Host.Outcome State Fault Refusal :=
  match pushReturn s s.pc with
  | some s' => .next (setPc s' (addrTarget nnn))
  | none => raise (.stackOverflow (encode (.op2nnn nnn)))

/-- Bnnn (rule R124): always V0, the sum not masked. -/
def execBnnn (nnn : Addr12) (s : State) : Host.Outcome State Fault Refusal :=
  .next (setPc s (offsetTarget nnn (getReg s 0#4)))

end Sys2Proof.Machine
end

