-- ==== Sys2Proof/Machine/Index.lean ====
section
/-! DEFINITION. Index register and memory transfer: Annn, Fx1E, Fx29, Fx33, Fx55, Fx65 (rules R190 to R199). -/

namespace Sys2Proof.Machine

/-- Annn (rule R191). -/
def execAnnn (nnn : Addr12) (s : State) : Host.Outcome State Fault Refusal :=
  .next (advance (setIndex s (indexImm Config.iWidth nnn)))

/-- Fx1E (rule R192): wraps at `I_WIDTH` bits, no flag. -/
def execFx1E (x : Reg) (s : State) : Host.Outcome State Fault Refusal :=
  .next (advance (setIndex s (indexAdd Config.iWidth s.i (getReg s x))))

/-- Fx29 (rule R193). -/
def execFx29 (x : Reg) (s : State) : Host.Outcome State Fault Refusal :=
  .next (advance (setIndex s (glyphIndex Config.iWidth (getReg s x))))

/-- Fx33 (rule R194). -/
def execFx33 (x : Reg) (s : State) : Host.Outcome State Fault Refusal :=
  guarded (storeFault (encode (.opFx33 x)) 3 s)
    (advance (setMem s (memWriteBytes s.mem (effAddr s 0) (bcdDigits (getReg s x)))))

/-- Fx55 (rule R198): `I` is not changed. -/
def execFx55 (x : Reg) (s : State) : Host.Outcome State Fault Refusal :=
  guarded (storeFault (encode (.opFx55 x)) (blockLength x) s)
    (advance (setMem s (memWriteBytes s.mem (effAddr s 0) (regBlock s x))))

/-- Fx65 (rule R199): `I` is not changed. -/
def execFx65 (x : Reg) (s : State) : Host.Outcome State Fault Refusal :=
  guarded (loadFault (encode (.opFx65 x)) (blockLength x) s) (advance (loadRegs s x))

end Sys2Proof.Machine
end

