-- ==== Sys2Proof/Machine/Keypad.lean ====
section
/-! DEFINITION. Keypad and timer instructions: Ex9E, ExA1, Fx07, Fx0A, Fx15, Fx18 (rules R230 to R240). -/

namespace Sys2Proof.Machine

/-- Ex9E (rule R231). -/
def execEx9E (x : Reg) (s : State) : Host.Outcome State Fault Refusal :=
  match keyIndex (getReg s x) with
  | some k => .next (skipIf (keyHeld s.keys k) s)
  | none => raise (.keyIndexOutOfRange (encode (.opEx9E x)))

/-- ExA1 (rule R232). -/
def execExA1 (x : Reg) (s : State) : Host.Outcome State Fault Refusal :=
  match keyIndex (getReg s x) with
  | some k => .next (skipIf (!keyHeld s.keys k) s)
  | none => raise (.keyIndexOutOfRange (encode (.opExA1 x)))

/-- Fx07 (rule R233). -/
def execFx07 (x : Reg) (s : State) : Host.Outcome State Fault Refusal :=
  .next (advance (setReg s x s.dt))

/-- Fx0A (rule R234): one row of its table a step. While it waits `pc` stays; it retires on the first step after the
latching one that sees no key down, and `KW.key` keeps its value. -/
def execFx0A (x : Reg) (s : State) : Host.Outcome State Fault Refusal :=
  if s.kw.latched then
    if s.keys = 0 then
      .next (advance (setWait (setReg s x (s.kw.key.setWidth 8)) { latched := false, key := s.kw.key }))
    else .next s
  else if s.keys = 0 then .next s
  else .next (setWait s { latched := true, key := lowestKey s.keys })

/-- Fx15 (rule R235). -/
def execFx15 (x : Reg) (s : State) : Host.Outcome State Fault Refusal :=
  .next (advance (setDelay s (getReg s x)))

/-- Fx18 (rule R236). -/
def execFx18 (x : Reg) (s : State) : Host.Outcome State Fault Refusal :=
  .next (advance (setSound s (getReg s x)))

end Sys2Proof.Machine
end

