-- ==== Sys2Proof/Machine/Skip.lean ====
section
/-! DEFINITION. Conditional skips on registers: 3xkk, 4xkk, 5xy0, 9xy0 (rules R140 to R144). -/

namespace Sys2Proof.Machine

/-- 3xkk (rule R141). -/
def exec3xkk (x : Reg) (kk : Byte) (s : State) : Host.Outcome State Fault Refusal :=
  .next (skipIf (getReg s x == kk) s)

/-- 4xkk (rule R142). -/
def exec4xkk (x : Reg) (kk : Byte) (s : State) : Host.Outcome State Fault Refusal :=
  .next (skipIf (getReg s x != kk) s)

/-- 5xy0 (rule R143). -/
def exec5xy0 (x y : Reg) (s : State) : Host.Outcome State Fault Refusal :=
  .next (skipIf (getReg s x == getReg s y) s)

/-- 9xy0 (rule R144). -/
def exec9xy0 (x y : Reg) (s : State) : Host.Outcome State Fault Refusal :=
  .next (skipIf (getReg s x != getReg s y) s)

end Sys2Proof.Machine
end

