-- ==== Sys2Proof/Machine/Fetch.lean ====
section
/-! DEFINITION. Fetch and decode, common to every step (rules R60, R63, R120, R254, R255), and placing an
instruction's bytes where the next fetch finds them. -/

namespace Sys2Proof.Machine

/-- Whether both bytes of the instruction at `pc` lie in memory: `pc ≤ 0xFFE` (rule R254). -/
def fetchInRange (s : State) : Bool := decide (s.pc.toNat + 1 ≤ Config.lastAddr)

/-- The opcode at `pc`, `MEM[pc] * 256 + MEM[pc + 1]` (rule R60); `pc` need not be even (rule R63). -/
def fetchWord (s : State) : Word16 := memReadWord s.mem s.pc.toNat

/-- Fetch and decode in the order of rule R261: first the fetch range, then the opcode. -/
def fetchInstr (s : State) : Except Fault Instr :=
  if fetchInRange s then
    match decodeWord (fetchWord s) with
    | .ok i => .ok i
    | .error _ => .error (.invalidInstruction (fetchWord s))
  else .error (.fetchOutOfRange s.pc)

/-- Store an instruction's bytes at `pc`, moving `pc` to the entry point first where no instruction can be fetched at it. -/
def placeAtPc (s : State) (bytes : List Byte) : State :=
  let s := if fetchInRange s then s else setPc s (BitVec.ofNat 16 Config.programBase)
  setMem s (memWriteBytes s.mem s.pc.toNat bytes)

end Sys2Proof.Machine
end

