-- ==== Sys2Proof/Machine/Step.lean ====
section
/-! DEFINITION. One `STEP`: fetch, decode, execute one instruction's effect, `pc` included (rules R120, R250, R261). -/

namespace Sys2Proof.Machine

/-- `step()` (rule R120): the instruction at `pc`, or the fault of fetching or decoding it. -/
def step (s : State) : Host.Outcome State Fault Refusal :=
  match fetchInstr s with
  | .ok i => exec i s
  | .error f => raise f

/-- `s` with the opcode-table word `w` stored at the place the next step fetches from (assumption 5). -/
def State.withFetchWord (s : State) (nbits w : Nat) : State := placeAtPc s (tableBytes nbits w)

end Sys2Proof.Machine
end

