-- ==== Sys2Proof/Machine/HostOps.lean ====
section
/-! DEFINITION. The host's side: the eight operations of the interface (rules R6, R50), each atomic and serial
(rule R300), as one transaction function over the state. -/

namespace Sys2Proof.Machine

/-- One timer's tick: down by one, floored at 0 (rule R271). -/
def tickDown (b : Byte) : Byte := if b = 0 then 0 else b - 1

/-- `TICK`: both timers, independently; nothing else (rule R271). -/
def tickTimers (s : State) : State := setSound (setDelay s (tickDown s.dt)) (tickDown s.st)

/-- The mask of key `k`. -/
def keyBit (k : Key) : Word16 := 1#16 <<< k.toNat

/-- `KEY_DOWN`: `KEYS[k] <- 1` (rule R272). -/
def keyDown (k : Key) (s : State) : State := setKeys s (s.keys ||| keyBit k)

/-- `KEY_UP`: `KEYS[k] <- 0` (rule R273). -/
def keyUp (k : Key) (s : State) : State := setKeys s (s.keys &&& ~~~keyBit k)

/-- `LOAD`: the bytes copied from 0x200 up, or none for `RomOversized`, which changes nothing (rules R260, R294). -/
def loadImage (program : List Byte) (s : State) : Option State :=
  if imageWellFormed program then some (setMem s (memWriteBytes s.mem Config.programBase program)) else none

/-- `DISPLAY`, port B: the 256 display bytes in address order (rules R70, R274). -/
def displayBuffer (s : State) : List Byte :=
  (List.range Config.displaySize).map fun j => memRead s.mem (Config.displayBase + j)

/-- `BEEP`: a level, 1 exactly while `ST > 0` (rule R275). -/
def shouldBeep (s : State) : Bool := decide (s.st ≠ 0)

/-- `RESET`: every item of rule R20 to its reset value (rules R290, R291). The random source is the host's and is not
reset: its two fields are kept, so that no byte drawn before is drawn again (assumption 4). -/
def resetMachine (s : State) : State := { State.reset with randIn := s.randIn, draws := s.draws }

/-- The eight operations of rule R50 with what the host sends. A key index is 4 bits, so one out of range cannot be
said (rule R273). -/
inductive HostOp where
  /-- `RESET`. -/
  | reset
  /-- `LOAD` of a byte sequence of any length. -/
  | load (program : List Byte)
  /-- `STEP` with the 8-bit `rand` input. -/
  | step (rand : Byte)
  /-- `TICK`. -/
  | tick
  /-- `KEY_DOWN`. -/
  | keyDown (k : Key)
  /-- `KEY_UP`. -/
  | keyUp (k : Key)
  /-- `DISPLAY`, the read of memory port B. -/
  | display
  /-- `BEEP`. -/
  | beep
  deriving DecidableEq, Repr

/-- What the host gets back (rules R50, R301). -/
inductive Reply where
  /-- Nothing. -/
  | done
  /-- The result of `LOAD`: accepted, or `RomOversized`. -/
  | loaded (accepted : Bool)
  /-- The status of `STEP`: its code and its 16-bit `info` (rule R250). -/
  | status (code : Nat) (info : Word16)
  /-- The model has no meaning for the instruction (never, on this hardware). -/
  | refused
  /-- The 256 display bytes. -/
  | bytes (buffer : List Byte)
  /-- The beep level. -/
  | level (on : Bool)
  deriving DecidableEq, Repr

/-- What a `LOAD` of `s` leaves and answers, from what copying the program gave (rules R260, R294). -/
def loadReply (s : State) : Option State → State × Reply
  | some s' => (s', .loaded true)
  | none => (s, .loaded false)

/-- What a `STEP` of `s` leaves and answers, from the step's outcome: a step that faults leaves the state as it was
(rule R252), and the bytes that stood on the input before it are back. -/
def stepReply (s : State) : Host.Outcome State Fault Refusal → State × Reply
  | .next s' => ({ s' with randIn := s.randIn }, .status 0 0)
  | .fault f => (s, .status (faultCode f) (faultInfo f))
  | .refused _ => (s, .refused)

/-- One operation, run to completion: the state it leaves and the reply (rule R300). `rand` is on the input for its own
step only. -/
def transact (op : HostOp) (s : State) : State × Reply :=
  match op with
  | .reset => (resetMachine s, .done)
  | .load program => loadReply s (loadImage program s)
  | .step rand => stepReply s (step { s with randIn := [rand] })
  | .tick => (tickTimers s, .done)
  | .keyDown k => (keyDown k s, .done)
  | .keyUp k => (keyUp k s, .done)
  | .display => (s, .bytes (displayBuffer s))
  | .beep => (s, .level (shouldBeep s))

/-- A schedule of operations, in the order the host issues them (rule R300). -/
def transactAll (ops : List HostOp) (s : State) : State := ops.foldl (fun s op => (transact op s).1) s

end Sys2Proof.Machine
end

