-- ==== Sys2Proof/Safety.lean ====
section
/-! DEFINITION. The terms claims are stated in: the invariant of every reachable state (rules R26, R48, R125), what is
reachable (rule R292), what an instruction leaves alone (frames), and the register access table of rule R23. -/

namespace Sys2Proof.Machine

/-! ### The invariant -/

/-- The font bytes are in place (rule R48). -/
abbrev FontIntact (s : State) : Prop := ∀ a, a < Config.fontEnd → memRead s.mem a = Config.fontByte a

/-- `SP` is even (rules R30, R48); that it is at most 64 is its type. -/
abbrev SpEven (s : State) : Prop := s.sp.val % 2 = 0

/-- The largest value any step stores in `pc` is 0x10FE (rule R26). -/
abbrev PcBounded (s : State) : Prop := s.pc.toNat ≤ 0x10FE

/-- Every slot holds the address of an instruction that was fetched, at most 0xFFE (rule R125), or zero. -/
abbrev SlotsFetched (s : State) : Prop := ∀ k : Fin Config.stackDepth, (s.stack[k.val]).toNat ≤ 0xFFE

/-- What holds in every state reachable from reset (rule R48 and the rules above), with the model's canonical memory. -/
abbrev Inv (s : State) : Prop := memWf s.mem = true ∧ FontIntact s ∧ SpEven s ∧ PcBounded s ∧ SlotsFetched s

/-- The states the operations of the interface reach, the first one being `RESET` (rule R292). -/
inductive Reachable : State → Prop where
  /-- `RESET` of any state. -/
  | reset (s : State) : Reachable (resetMachine s)
  /-- One more operation. -/
  | op (o : HostOp) {s : State} (h : Reachable s) : Reachable (transact o s).1

/-- `n` steps from `s` that meet no fault. -/
def RunsSafely (n : Nat) (s : State) : Prop :=
  match n with
  | 0 => True
  | k + 1 => ∃ t, step s = .next t ∧ RunsSafely k t

/-! ### Frames: what stays as it was -/

/-- Every general register outside `ds`. -/
def SameRegsExcept (ds : List Reg) (s t : State) : Prop := ∀ r, r ∉ ds → getReg t r = getReg s r

/-- Every byte of memory whose address is not in `stored`. -/
def SameMemOutside (stored : Nat → Prop) (s t : State) : Prop := ∀ a, ¬ stored a → memRead t.mem a = memRead s.mem a

/-- Every byte of memory. -/
def SameMem (s t : State) : Prop := ∀ a, memRead t.mem a = memRead s.mem a

/-- The stack and its pointer. -/
def SameStack (s t : State) : Prop := t.sp = s.sp ∧ t.stack = s.stack

/-- Both timers. -/
def SameTimers (s t : State) : Prop := t.dt = s.dt ∧ t.st = s.st

/-- The key mask and the key-wait latch. -/
def SameKeypad (s t : State) : Prop := t.keys = s.keys ∧ t.kw = s.kw

/-- The random source: no byte was drawn. -/
def SameRandom (s t : State) : Prop := t.randIn = s.randIn ∧ t.draws = s.draws

/-- Only the registers `ds` and `pc` may differ. -/
def OnlyRegsAndPc (ds : List Reg) (s t : State) : Prop :=
  SameRegsExcept ds s t ∧ SameMem s t ∧ t.i = s.i ∧ SameStack s t ∧ SameTimers s t ∧ SameKeypad s t ∧ SameRandom s t

/-- Only `pc` may differ. -/
def OnlyPc (s t : State) : Prop := OnlyRegsAndPc [] s t

/-- Only the registers `ds`, the memory bytes at addresses in `stored`, and `pc` may differ. -/
def OnlyRegsMemAndPc (ds : List Reg) (stored : Nat → Prop) (s t : State) : Prop :=
  SameRegsExcept ds s t ∧ SameMemOutside stored s t ∧ t.i = s.i ∧ SameStack s t ∧ SameTimers s t ∧ SameKeypad s t ∧
    SameRandom s t

/-- The outcome with its next state, if it has one, changed by `f`. -/
def onNext (f : State → State) : Host.Outcome State Fault Refusal → Host.Outcome State Fault Refusal
  | .next t => .next (f t)
  | .fault r => .fault r
  | .refused r => .refused r

/-! ### The register access table (rule R23) -/

/-- V0 to Vx. -/
def regsUpTo (x : Reg) : List Reg := (List.range (x.toNat + 1)).map fun k => BitVec.ofNat 4 k

/-- The "reads" column. -/
def regsRead : Instr → List Reg
  | .op00E0 => []
  | .op00EE => []
  | .op1nnn _ => []
  | .op2nnn _ => []
  | .op3xkk x _ => [x]
  | .op4xkk x _ => [x]
  | .op5xy0 x y => [x, y]
  | .op6xkk _ _ => []
  | .op7xkk x _ => [x]
  | .op8xy0 _ y => [y]
  | .op8xy1 x y => [x, y]
  | .op8xy2 x y => [x, y]
  | .op8xy3 x y => [x, y]
  | .op8xy4 x y => [x, y]
  | .op8xy5 x y => [x, y]
  | .op8xy6 x _ => [x]
  | .op8xy7 x y => [x, y]
  | .op8xyE x _ => [x]
  | .op9xy0 x y => [x, y]
  | .opAnnn _ => []
  | .opBnnn _ => [0#4]
  | .opCxkk _ _ => []
  | .opDxyn x y _ => [x, y]
  | .opEx9E x => [x]
  | .opExA1 x => [x]
  | .opFx07 _ => []
  | .opFx0A _ => []
  | .opFx15 x => [x]
  | .opFx18 x => [x]
  | .opFx1E x => [x]
  | .opFx29 x => [x]
  | .opFx33 x => [x]
  | .opFx55 x => regsUpTo x
  | .opFx65 _ => []

/-- The "writes" column; Fx0A writes Vx only in the step that retires it. -/
def regsWritten : Instr → List Reg
  | .op00E0 => []
  | .op00EE => []
  | .op1nnn _ => []
  | .op2nnn _ => []
  | .op3xkk _ _ => []
  | .op4xkk _ _ => []
  | .op5xy0 _ _ => []
  | .op6xkk x _ => [x]
  | .op7xkk x _ => [x]
  | .op8xy0 x _ => [x]
  | .op8xy1 x _ => [x]
  | .op8xy2 x _ => [x]
  | .op8xy3 x _ => [x]
  | .op8xy4 x _ => [x, VF]
  | .op8xy5 x _ => [x, VF]
  | .op8xy6 x _ => [x, VF]
  | .op8xy7 x _ => [x, VF]
  | .op8xyE x _ => [x, VF]
  | .op9xy0 _ _ => []
  | .opAnnn _ => []
  | .opBnnn _ => []
  | .opCxkk x _ => [x]
  | .opDxyn _ _ _ => [VF]
  | .opEx9E _ => []
  | .opExA1 _ => []
  | .opFx07 x => [x]
  | .opFx0A x => [x]
  | .opFx15 _ => []
  | .opFx18 _ => []
  | .opFx1E _ => []
  | .opFx29 _ => []
  | .opFx33 _ => []
  | .opFx55 _ => []
  | .opFx65 x => regsUpTo x

/-! ### Sequences of calls (rule R125) -/

/-- Calls made one after another, each from its own address to its own target, with no return between. -/
def callAll : List (Word16 × Addr12) → State → Host.Outcome State Fault Refusal
  | [], s => .next s
  | (site, nnn) :: rest, s =>
    match exec (.op2nnn nnn) (setPc s site) with
    | .next t => callAll rest t
    | .fault f => .fault f
    | .refused r => .refused r

/-! ### Fetching what was stored (rule R79) -/

/-- Whatever address `pc` is then set to, a step from `t` fetches the two bytes that `b` gives there and runs the
instruction they spell, or faults with their word where they spell none. -/
def FetchSees (t : State) (b : Nat → Byte) : Prop :=
  ∀ p : Word16, p.toNat ≤ 0xFFE →
    let op := wordOfBytes (b p.toNat) (b (p.toNat + 1))
    (∀ i, decodeWord op = .ok i → step (setPc t p) = exec i (setPc t p)) ∧
    (∀ e, decodeWord op = .error e → step (setPc t p) = .fault (.invalidInstruction op))

/-! ### Sprites, stated pixel by pixel (rules R44, R213, R215) -/

/-- Whether row `b` of a sprite drawn at column `vx` on row `row` (wrapped modulo 32) has a set source bit at
pixel `(px, py)`: some column `col` of the eight lands there. -/
def rowCovers (b : Byte) (vx row : Nat) (px py : Nat) : Prop :=
  py = row % 32 ∧ ∃ col, col < 8 ∧ px = (vx + col) % 64 ∧ b.getLsbD (7 - col) = true

/-- Whether the `n`-row sprite at `i0` of memory `m`, drawn at `(vx, vy)`, has a set source bit at pixel `(px, py)`. -/
def spriteCovers (m : List Host.Cell) (i0 vx vy n : Nat) (px py : Nat) : Prop :=
  ∃ row, row < n ∧ rowCovers (memRead m (i0 + row)) vx (vy + row) px py

end Sys2Proof.Machine
end

