-- ==== Sys2Proof/Certificates/Slice0/Obligations.lean ====
section
/-! DEFINITION. The statements for the provers, each from the numbered rules its docstring cites. -/

open Sys2Proof Sys2Proof.Machine

/-! ### Encoding -/

/-- Decoding an encoded instruction gives it back with every operand, from its word and from its bytes whatever follows
them (rules R90 to R96). -/
def Obligations.DecodeUndoesEncode : Prop :=
  ∀ i : Instr, decodeWord (encode i) = .ok i ∧ ∀ rest, decodeBytes (encodeBytes i ++ rest) = .ok (i, rest)

/-- A word that decodes is the encoding of what it decodes to: no bit of a word is dropped (rules R91, R92, R99). -/
def Obligations.EncodeUndoesDecode : Prop :=
  ∀ (op : Word16) (i : Instr), decodeWord op = .ok i → encode i = op

/-- R95 (which the spec derives itself): every word is exactly one of the 34 instructions or invalid, and no two rows
match the same word. -/
def Obligations.EveryWordIsOneInstructionOrInvalid : Prop :=
  opcodeMap.length = 34 ∧
  (∀ op : Word16,
    (∃ i, decodeWord op = .ok i ∧ i.row ∈ opcodeMap ∧ i.row.matchesWord op = true) ∨
    (decodeWord op = .error (.invalid op) ∧ ∀ r ∈ opcodeMap, r.matchesWord op = false)) ∧
  (∀ (op : Word16) (r r' : Row), r ∈ opcodeMap → r' ∈ opcodeMap →
    r.matchesWord op = true → r'.matchesWord op = true → r = r')

/-- R97's table of invalid words, family by family (its counts apart): they are exactly the words the decoder rejects.
That fixed sub-opcode bits are strict is the spec's own decision D17 (assumption 12). -/
def Obligations.RejectedWordsAreTheListedOnes : Prop :=
  ∀ op : Word16, decodeWord op = .error (.invalid op) ↔
    let t := op.toNat / 4096
    let n := op.toNat % 16
    let kk := op.toNat % 256
    (t = 0x0 ∧ op.toNat ≠ 0x00E0 ∧ op.toNat ≠ 0x00EE) ∨
    (t = 0x5 ∧ n ≠ 0) ∨
    (t = 0x8 ∧ n ∈ [8, 9, 0xA, 0xB, 0xC, 0xD, 0xF]) ∨
    (t = 0x9 ∧ n ≠ 0) ∨
    (t = 0xE ∧ kk ∉ [0x9E, 0xA1]) ∨
    (t = 0xF ∧ kk ∉ [0x07, 0x0A, 0x15, 0x18, 0x1E, 0x29, 0x33, 0x55, 0x65])

/-- Words written out from the patterns of R96, one or more of each format and of each of the 16 families, decode as the
spec reads them; that 5123 is rejected is the spec's own decision D17 (assumption 12). -/
def Obligations.SampleWordsDecodeAsTheSpecReadsThem : Prop :=
  decodeWord 0b0000000011100000#16 = .ok .op00E0 ∧
  decodeWord 0b0000000011101110#16 = .ok .op00EE ∧
  decodeWord 0b0001001000110100#16 = .ok (.op1nnn 0x234) ∧
  decodeWord 0b0010111111111111#16 = .ok (.op2nnn 0xFFF) ∧
  decodeWord 0b0011101001111011#16 = .ok (.op3xkk 0xA 0x7B) ∧
  decodeWord 0b0100101001111011#16 = .ok (.op4xkk 0xA 0x7B) ∧
  decodeWord 0b0101101010110000#16 = .ok (.op5xy0 0xA 0xB) ∧
  decodeWord 0b0110101001111011#16 = .ok (.op6xkk 0xA 0x7B) ∧
  decodeWord 0b0111101001111011#16 = .ok (.op7xkk 0xA 0x7B) ∧
  decodeWord 0b1000101010110110#16 = .ok (.op8xy6 0xA 0xB) ∧
  decodeWord 0b1001101010110000#16 = .ok (.op9xy0 0xA 0xB) ∧
  decodeWord 0b1010101010111100#16 = .ok (.opAnnn 0xABC) ∧
  decodeWord 0b1011101010111100#16 = .ok (.opBnnn 0xABC) ∧
  decodeWord 0b1100101001111011#16 = .ok (.opCxkk 0xA 0x7B) ∧
  decodeWord 0b1101000000011111#16 = .ok (.opDxyn 0x0 0x1 0xF) ∧
  decodeWord 0b1110101010011110#16 = .ok (.opEx9E 0xA) ∧
  decodeWord 0b1111101000001010#16 = .ok (.opFx0A 0xA) ∧
  decodeWord 0b0101000100100011#16 = .error (.invalid 0x5123)

/-! ### The step -/

/-- R60, R120 and R255: a step fetches big-endian at `pc`, runs the instruction the word decodes to, and faults with the
raw word where it decodes to none. That it does so at every `pc` up to 0xFFE, odd or even, is the spec's own decision D12
(assumption 13). -/
def Obligations.StepRunsTheDecodedInstruction : Prop :=
  ∀ s : State,
    let op : Word16 := BitVec.ofNat 16 ((memRead s.mem s.pc.toNat).toNat * 256 + (memRead s.mem (s.pc.toNat + 1)).toNat)
    (s.pc.toNat ≤ 0xFFE → ∀ i, decodeWord op = .ok i → step s = exec i s) ∧
    (s.pc.toNat ≤ 0xFFE → ∀ e, decodeWord op = .error e → step s = .fault (.invalidInstruction op))

/-- R254, the spec's own decision D3 (assumption 10): past 0xFFE nothing is fetched and the step faults with `pc`. -/
def Obligations.FetchPastMemoryFaults : Prop :=
  ∀ s : State, s.pc.toNat > 0xFFE → step s = .fault (.fetchOutOfRange s.pc)

/-- An instruction placed where the next step fetches is the one that step runs (the model's own `withFetchWord`,
assumption 5; R60, R79). -/
def Obligations.PlacedWordIsTheNextOneRun : Prop :=
  ∀ (s : State) (i : Instr), memWf s.mem = true →
    step (s.withFetchWord 16 (encode i).toNat) = exec i (s.withFetchWord 16 (encode i).toNat)

/-- No instruction is refused: each has a meaning (R250). -/
def Obligations.NoInstructionIsRefused : Prop :=
  ∀ (i : Instr) (s : State) (r : Refusal), exec i s ≠ .refused r

/-- The table of R262 and the conditions of R256 to R259, which are the spec's own decisions D2, D4, D5, D7 (assumptions
10, 11): which instruction raises which fault, when, and with the opcode as `info`; complete. `SP` even is the invariant
of R30. -/
def Obligations.ExecutionFaultsAreExactlyTheListedOnes : Prop :=
  ∀ (i : Instr) (s : State) (f : Fault), SpEven s →
    (exec i s = .fault f ↔
      (∃ nnn, i = .op2nnn nnn ∧ s.sp.val = 64 ∧ f = .stackOverflow (encode i)) ∨
      (i = .op00EE ∧ s.sp.val = 0 ∧ f = .stackUnderflow (encode i)) ∨
      (∃ x y n, i = .opDxyn x y n ∧ n.toNat > 0 ∧ s.i.toNat + n.toNat - 1 > 0xFFF ∧ f = .addressOutOfRange (encode i)) ∨
      (∃ x, i = .opFx65 x ∧ s.i.toNat + x.toNat > 0xFFF ∧ f = .addressOutOfRange (encode i)) ∨
      (∃ x, i = .opFx33 x ∧ s.i.toNat + 2 > 0xFFF ∧ f = .addressOutOfRange (encode i)) ∨
      (∃ x, i = .opFx33 x ∧ s.i.toNat < 0x050 ∧ f = .fontWrite (encode i)) ∨
      (∃ x, i = .opFx55 x ∧ s.i.toNat + x.toNat > 0xFFF ∧ f = .addressOutOfRange (encode i)) ∨
      (∃ x, i = .opFx55 x ∧ s.i.toNat < 0x050 ∧ f = .fontWrite (encode i)) ∨
      (∃ x, (i = .opEx9E x ∨ i = .opExA1 x) ∧ (getReg s x).toNat > 15 ∧ f = .keyIndexOutOfRange (encode i)))

/-- R252, R253, the spec's own decisions D6 and D19 (assumption 11): at the STEP port a fault leaves every piece of
state as it was and draws no random byte, and every later step reports the same fault, whatever `rand` is and whatever
steps, ticks, key events and reads come between. -/
def Obligations.FaultsChangeNothingAndRepeat : Prop :=
  ∀ (s s' : State) (r : Byte) (code : Nat) (info : Word16),
    transact (.step r) s = (s', .status code info) → code ≠ 0 →
      s' = s ∧
      ∀ (r' : Byte) (between : List HostOp),
        (∀ o ∈ between, o = .tick ∨ (∃ k, o = .keyDown k) ∨ (∃ k, o = .keyUp k) ∨ o = .display ∨ o = .beep ∨
          ∃ q, o = .step q) →
        (transact (.step r') (transactAll between s')).2 = .status code info

/-- R250, its numbers the spec's own decision D11 (assumption 21): what a STEP leaves and reports. One that completes
leaves the state its step gave, `rand` having been on the input for that step alone (the input queue is the model's own,
assumption 4, and is put back), and reports `Ok`, code 0 and info 0; one that faults reports the code and `info` of its
fault. -/
def Obligations.StepReportsItsStatus : Prop :=
  ∀ (s : State) (r : Byte),
    (∀ t, step { s with randIn := [r] } = .next t →
      transact (.step r) s = ({ t with randIn := s.randIn }, .status 0 0)) ∧
    (∀ op, step { s with randIn := [r] } = .fault (.invalidInstruction op) → (transact (.step r) s).2 = .status 1 op) ∧
    (∀ op, step { s with randIn := [r] } = .fault (.stackOverflow op) → (transact (.step r) s).2 = .status 2 op) ∧
    (∀ op, step { s with randIn := [r] } = .fault (.stackUnderflow op) → (transact (.step r) s).2 = .status 3 op) ∧
    (∀ pc, step { s with randIn := [r] } = .fault (.fetchOutOfRange pc) → (transact (.step r) s).2 = .status 4 pc) ∧
    (∀ op, step { s with randIn := [r] } = .fault (.addressOutOfRange op) → (transact (.step r) s).2 = .status 5 op) ∧
    (∀ op, step { s with randIn := [r] } = .fault (.fontWrite op) → (transact (.step r) s).2 = .status 6 op) ∧
    (∀ op, step { s with randIn := [r] } = .fault (.keyIndexOutOfRange op) → (transact (.step r) s).2 = .status 7 op)

/-! ### Control transfer -/

/-- R122, R124: the two jumps complete in every state; Bnnn adds V0 without masking the sum; only `pc` changes. -/
def Obligations.JumpsSetThePc : Prop :=
  ∀ (s : State) (nnn : Addr12),
    (∃ t, exec (.op1nnn nnn) s = .next t ∧ t.pc.toNat = nnn.toNat ∧ OnlyPc s t) ∧
    (∃ t, exec (.opBnnn nnn) s = .next t ∧ t.pc.toNat = nnn.toNat + (getReg s 0#4).toNat ∧ OnlyPc s t)

/-- R123: a call with a free slot pushes its own address and jumps; with the stack full, at the depth of 32 of
assumption 3, it faults (the spec's own decision D5, assumption 11). `SP` is even (R30). -/
def Obligations.CallPushesItsAddressAndJumps : Prop :=
  ∀ (s : State) (nnn : Addr12),
    (∀ k : Fin Config.stackDepth, s.sp.val = 2 * k.val →
      ∃ t, exec (.op2nnn nnn) s = .next t ∧ t.stack[k.val] = s.pc ∧
        (∀ j : Fin Config.stackDepth, j ≠ k → t.stack[j.val] = s.stack[j.val]) ∧
        t.sp.val = 2 * k.val + 2 ∧ t.pc.toNat = nnn.toNat ∧
        SameRegsExcept [] s t ∧ SameMem s t ∧ t.i = s.i ∧ SameTimers s t ∧ SameKeypad s t ∧ SameRandom s t) ∧
    (s.sp.val = 64 → exec (.op2nnn nnn) s = .fault (.stackOverflow (encode (.op2nnn nnn))))

/-- R121: a return with an address on the stack takes it off and continues two bytes after it, the slot keeping its
value; with the stack empty it faults (the spec's own decision D5, assumption 11). `SP` is even (R30). -/
def Obligations.ReturnContinuesAfterTheCall : Prop :=
  ∀ s : State,
    (∀ k : Fin Config.stackDepth, s.sp.val = 2 * k.val + 2 →
      ∃ t, exec .op00EE s = .next t ∧ t.sp.val = 2 * k.val ∧ t.pc = s.stack[k.val] + 2 ∧ t.stack = s.stack ∧
        SameRegsExcept [] s t ∧ SameMem s t ∧ t.i = s.i ∧ SameTimers s t ∧ SameKeypad s t ∧ SameRandom s t) ∧
    (s.sp.val = 0 → exec .op00EE s = .fault (.stackUnderflow 0x00EE))

/-- R125 (which the spec derives itself): a return undoes the latest call from whatever state the stack is then in; and
after `k` calls without a return from an empty stack, `SP = 2k` and the first `k` slots hold the call sites, oldest
first. -/
def Obligations.CallsNestAndReturnsUndoThem : Prop :=
  (∀ (s t u : State) (nnn : Addr12), SpEven s → exec (.op2nnn nnn) s = .next t → u.sp = t.sp → u.stack = t.stack →
    ∃ w, exec .op00EE u = .next w ∧ w.pc = s.pc + 2 ∧ w.sp = s.sp) ∧
  (∀ (calls : List (Word16 × Addr12)) (s : State), s.sp.val = 0 → calls.length ≤ Config.stackDepth →
    ∃ t, callAll calls s = .next t ∧ t.sp.val = 2 * calls.length ∧
      ∀ (k : Nat) (hk : k < calls.length) (hd : k < Config.stackDepth), t.stack[k] = calls[k].1)

/-- R122 and R304: an instruction that jumps to its own address changes nothing, so the core idles on it for ever. -/
def Obligations.SelfJumpIdlesForEver : Prop :=
  ∀ (s : State) (nnn : Addr12), s.pc.toNat ≤ 0xFFE → s.pc.toNat = nnn.toNat →
    decodeWord (memReadWord s.mem s.pc.toNat) = .ok (.op1nnn nnn) →
    step s = .next s ∧ ∀ n, RunsSafely n s

/-- R25: each instruction that completes sets `pc` by its class, 16-bit. That a step that faults leaves `pc` (the first
clause) is the spec's own decision D19 (assumption 11, unsafe for this very claim). -/
def Obligations.PcFollowsTheClassOfTheInstruction : Prop :=
  (∀ (s : State) (r : Byte) (code : Nat) (info : Word16), (transact (.step r) s).2 = .status code info → code ≠ 0 →
    (transact (.step r) s).1.pc = s.pc) ∧
  ∀ (i : Instr) (s t : State), exec i s = .next t →
    match i with
    | .op1nnn nnn => t.pc = nnn.setWidth 16
    | .op2nnn nnn => t.pc = nnn.setWidth 16
    | .opBnnn nnn => t.pc = nnn.setWidth 16 + (getReg s 0#4).setWidth 16
    | .op00EE => ∃ k : Fin Config.stackDepth, k.val = (s.sp.val - 2) / 2 ∧ t.pc = s.stack[k.val] + 2
    | .op3xkk x kk => t.pc = if getReg s x = kk then s.pc + 4 else s.pc + 2
    | .op4xkk x kk => t.pc = if getReg s x ≠ kk then s.pc + 4 else s.pc + 2
    | .op5xy0 x y => t.pc = if getReg s x = getReg s y then s.pc + 4 else s.pc + 2
    | .op9xy0 x y => t.pc = if getReg s x ≠ getReg s y then s.pc + 4 else s.pc + 2
    | .opEx9E x => t.pc = if s.keys.getLsbD (getReg s x).toNat = true then s.pc + 4 else s.pc + 2
    | .opExA1 x => t.pc = if s.keys.getLsbD (getReg s x).toNat = false then s.pc + 4 else s.pc + 2
    | .opFx0A _ => t.pc = if s.kw.latched = true ∧ s.keys = 0 then s.pc + 2 else s.pc
    | _ => t.pc = s.pc + 2

/-! ### Skips -/

/-- R141 to R144: the four register skips complete in every state, step over exactly two or four bytes, and change
nothing but `pc`. -/
def Obligations.RegisterSkipsComplete : Prop :=
  ∀ (s : State) (x y : Reg) (kk : Byte),
    (∃ t, exec (.op3xkk x kk) s = .next t ∧ t.pc = (if getReg s x = kk then s.pc + 4 else s.pc + 2) ∧ OnlyPc s t) ∧
    (∃ t, exec (.op4xkk x kk) s = .next t ∧ t.pc = (if getReg s x = kk then s.pc + 2 else s.pc + 4) ∧ OnlyPc s t) ∧
    (∃ t, exec (.op5xy0 x y) s = .next t ∧ t.pc = (if getReg s x = getReg s y then s.pc + 4 else s.pc + 2) ∧ OnlyPc s t) ∧
    (∃ t, exec (.op9xy0 x y) s = .next t ∧ t.pc = (if getReg s x = getReg s y then s.pc + 2 else s.pc + 4) ∧ OnlyPc s t)

/-- R231, R232: the key skips complete for the key indices 0 to 15, by the held bit of that key, and change nothing but
`pc`; for a larger index they fault (the spec's own decision D7, assumption 10). -/
def Obligations.KeySkipsTestTheHeldBit : Prop :=
  ∀ (s : State) (x : Reg),
    ((getReg s x).toNat ≤ 15 →
      (∃ t, exec (.opEx9E x) s = .next t ∧
        t.pc = (if s.keys.getLsbD (getReg s x).toNat = true then s.pc + 4 else s.pc + 2) ∧ OnlyPc s t) ∧
      (∃ t, exec (.opExA1 x) s = .next t ∧
        t.pc = (if s.keys.getLsbD (getReg s x).toNat = true then s.pc + 2 else s.pc + 4) ∧ OnlyPc s t)) ∧
    ((getReg s x).toNat > 15 →
      exec (.opEx9E x) s = .fault (.keyIndexOutOfRange (encode (.opEx9E x))) ∧
      exec (.opExA1 x) s = .fault (.keyIndexOutOfRange (encode (.opExA1 x))))

/-! ### Registers -/

/-- R161 to R163: load, add immediate and copy complete in every state; only Vx and `pc` change (so 7xkk writes no flag
but for `x = 15`). -/
def Obligations.LoadAddAndCopyWriteOneRegister : Prop :=
  ∀ (s : State) (x y : Reg) (kk : Byte),
    (∃ t, exec (.op6xkk x kk) s = .next t ∧ getReg t x = kk ∧ t.pc = s.pc + 2 ∧ OnlyRegsAndPc [x] s t) ∧
    (∃ t, exec (.op7xkk x kk) s = .next t ∧ (getReg t x).toNat = ((getReg s x).toNat + kk.toNat) % 256 ∧
      t.pc = s.pc + 2 ∧ OnlyRegsAndPc [x] s t) ∧
    (∃ t, exec (.op8xy0 x y) s = .next t ∧ getReg t x = getReg s y ∧ t.pc = s.pc + 2 ∧ OnlyRegsAndPc [x] s t)

/-- R164 to R166: OR, AND and XOR, bit by bit; no flag is written. -/
def Obligations.LogicWorksBitByBit : Prop :=
  ∀ (s : State) (x y : Reg),
    (∃ t, exec (.op8xy1 x y) s = .next t ∧
      (∀ k, k < 8 → (getReg t x).getLsbD k = ((getReg s x).getLsbD k || (getReg s y).getLsbD k)) ∧
      t.pc = s.pc + 2 ∧ OnlyRegsAndPc [x] s t) ∧
    (∃ t, exec (.op8xy2 x y) s = .next t ∧
      (∀ k, k < 8 → (getReg t x).getLsbD k = ((getReg s x).getLsbD k && (getReg s y).getLsbD k)) ∧
      t.pc = s.pc + 2 ∧ OnlyRegsAndPc [x] s t) ∧
    (∃ t, exec (.op8xy3 x y) s = .next t ∧
      (∀ k, k < 8 → (getReg t x).getLsbD k = Bool.xor ((getReg s x).getLsbD k) ((getReg s y).getLsbD k)) ∧
      t.pc = s.pc + 2 ∧ OnlyRegsAndPc [x] s t)

/-- R167: 8xy4 for every `x` and `y`: VF is the carry of the old operands (written last, so also for `x = 15`), and Vx,
when it is not VF, the sum modulo 256. -/
def Obligations.AddSetsTheCarry : Prop :=
  ∀ (s : State) (x y : Reg),
    ∃ t, exec (.op8xy4 x y) s = .next t ∧
      (getReg t VF).toNat = (if (getReg s x).toNat + (getReg s y).toNat > 255 then 1 else 0) ∧
      (x ≠ VF → (getReg t x).toNat = ((getReg s x).toNat + (getReg s y).toNat) % 256) ∧
      t.pc = s.pc + 2 ∧ OnlyRegsAndPc [x, VF] s t

/-- R168, R170: 8xy5 and 8xy7 for every `x` and `y`: Vx is the difference modulo 256 (written last, so also for `x =
15`), and VF, when it is not Vx, 1 exactly when there was no borrow. What register 15 as an operand gives is the spec's
own decision D8 (assumption 8). -/
def Obligations.SubtractsSetNotBorrow : Prop :=
  ∀ (s : State) (x y : Reg),
    (∃ t, exec (.op8xy5 x y) s = .next t ∧
      (getReg t x).toNat = ((getReg s x).toNat + 256 - (getReg s y).toNat) % 256 ∧
      (x ≠ VF → (getReg t VF).toNat = if (getReg s x).toNat ≥ (getReg s y).toNat then 1 else 0) ∧
      t.pc = s.pc + 2 ∧ OnlyRegsAndPc [x, VF] s t) ∧
    (∃ t, exec (.op8xy7 x y) s = .next t ∧
      (getReg t x).toNat = ((getReg s y).toNat + 256 - (getReg s x).toNat) % 256 ∧
      (x ≠ VF → (getReg t VF).toNat = if (getReg s y).toNat ≥ (getReg s x).toNat then 1 else 0) ∧
      t.pc = s.pc + 2 ∧ OnlyRegsAndPc [x, VF] s t)

/-- R169, R171, and R99's ignored field: the shifts for every `x`: Vx is halved or doubled modulo 256 (written last),
VF, when it is not Vx, is the bit shifted out, and the `y` field changes nothing. That Vx is shifted, not Vy, and what
`x = 15` gives are the spec's own decisions D24 and D8 (assumptions 16, 8). -/
def Obligations.ShiftsSetTheBitShiftedOut : Prop :=
  ∀ (s : State) (x y : Reg),
    (∃ t, exec (.op8xy6 x y) s = .next t ∧
      (getReg t x).toNat = (getReg s x).toNat / 2 ∧
      (x ≠ VF → (getReg t VF).toNat = (getReg s x).toNat % 2) ∧
      t.pc = s.pc + 2 ∧ OnlyRegsAndPc [x, VF] s t) ∧
    (∃ t, exec (.op8xyE x y) s = .next t ∧
      (getReg t x).toNat = (getReg s x).toNat * 2 % 256 ∧
      (x ≠ VF → (getReg t VF).toNat = (getReg s x).toNat / 128) ∧
      t.pc = s.pc + 2 ∧ OnlyRegsAndPc [x, VF] s t) ∧
    (∀ y', exec (.op8xy6 x y') s = exec (.op8xy6 x y) s ∧ exec (.op8xyE x y') s = exec (.op8xyE x y) s)

/-- R180, the spec's own decision D8 (assumption 8): the table of what Vx and VF become when an 8xy instruction names
register 15. `F` is the old VF, `a` the old register that is not VF where it is `x`, `b` where it is `y`. -/
def Obligations.RegisterFifteenAsOperand : Prop :=
  ∀ (s t : State),
    let F := (getReg s VF).toNat
    (∀ y, y ≠ VF →
      let b := (getReg s y).toNat
      (exec (.op8xy0 VF y) s = .next t → (getReg t VF).toNat = b) ∧
      (exec (.op8xy1 VF y) s = .next t → (getReg t VF).toNat = F ||| b) ∧
      (exec (.op8xy2 VF y) s = .next t → (getReg t VF).toNat = F &&& b) ∧
      (exec (.op8xy3 VF y) s = .next t → (getReg t VF).toNat = F ^^^ b) ∧
      (exec (.op8xy4 VF y) s = .next t → (getReg t VF).toNat = if F + b > 255 then 1 else 0) ∧
      (exec (.op8xy5 VF y) s = .next t → (getReg t VF).toNat = (F + 256 - b) % 256) ∧
      (exec (.op8xy6 VF y) s = .next t → (getReg t VF).toNat = F / 2) ∧
      (exec (.op8xy7 VF y) s = .next t → (getReg t VF).toNat = (b + 256 - F) % 256) ∧
      (exec (.op8xyE VF y) s = .next t → (getReg t VF).toNat = 2 * F % 256)) ∧
    (∀ x, x ≠ VF →
      let a := (getReg s x).toNat
      (exec (.op8xy0 x VF) s = .next t → (getReg t x).toNat = F ∧ (getReg t VF).toNat = F) ∧
      (exec (.op8xy1 x VF) s = .next t → (getReg t x).toNat = a ||| F ∧ (getReg t VF).toNat = F) ∧
      (exec (.op8xy2 x VF) s = .next t → (getReg t x).toNat = a &&& F ∧ (getReg t VF).toNat = F) ∧
      (exec (.op8xy3 x VF) s = .next t → (getReg t x).toNat = a ^^^ F ∧ (getReg t VF).toNat = F) ∧
      (exec (.op8xy4 x VF) s = .next t →
        (getReg t x).toNat = (a + F) % 256 ∧ (getReg t VF).toNat = if a + F > 255 then 1 else 0) ∧
      (exec (.op8xy5 x VF) s = .next t →
        (getReg t x).toNat = (a + 256 - F) % 256 ∧ (getReg t VF).toNat = if a ≥ F then 1 else 0) ∧
      (exec (.op8xy6 x VF) s = .next t → (getReg t x).toNat = a / 2 ∧ (getReg t VF).toNat = a % 2) ∧
      (exec (.op8xy7 x VF) s = .next t →
        (getReg t x).toNat = (F + 256 - a) % 256 ∧ (getReg t VF).toNat = if F ≥ a then 1 else 0) ∧
      (exec (.op8xyE x VF) s = .next t → (getReg t x).toNat = 2 * a % 256 ∧ (getReg t VF).toNat = a / 128)) ∧
    ((exec (.op8xy4 VF VF) s = .next t → (getReg t VF).toNat = F / 128) ∧
      (exec (.op8xy5 VF VF) s = .next t → (getReg t VF).toNat = 0) ∧
      (exec (.op8xy7 VF VF) s = .next t → (getReg t VF).toNat = 0) ∧
      (exec (.op8xy6 VF VF) s = .next t → (getReg t VF).toNat = F / 2) ∧
      (exec (.op8xyE VF VF) s = .next t → (getReg t VF).toNat = 2 * F % 256))

/-- R172, its `rand` input the spec's own decision D10: Cxkk completes in every state and writes the drawn byte under
the mask; exactly one byte is drawn, the oldest on the host's input, or, with none there, the free byte of assumption 4
(of which nothing can be proved). -/
def Obligations.RandomByteUnderMask : Prop :=
  ∀ (s : State) (x : Reg) (kk : Byte),
    (∀ (r : Byte) (rest : List Byte), s.randIn = r :: rest →
      ∃ t, exec (.opCxkk x kk) s = .next t ∧ getReg t x = r &&& kk ∧ t.randIn = rest ∧ t.draws = s.draws ∧
        t.pc = s.pc + 2 ∧ SameRegsExcept [x] s t ∧ SameMem s t ∧ t.i = s.i ∧ SameStack s t ∧ SameTimers s t ∧
        SameKeypad s t) ∧
    (s.randIn = [] →
      ∃ t, exec (.opCxkk x kk) s = .next t ∧ getReg t x = Config.freeRandomByte s.draws &&& kk ∧ t.randIn = [] ∧
        t.draws = s.draws + 1 ∧ t.pc = s.pc + 2 ∧ SameRegsExcept [x] s t ∧ SameMem s t ∧ t.i = s.i ∧ SameStack s t ∧
        SameTimers s t ∧ SameKeypad s t)

/-- R276, the spec's own decision D10: what a step fetches, and what anything but Cxkk does or faults with, is the same
whatever bytes the random source has and however many were drawn. -/
def Obligations.OnlyCxkkSeesTheRandomByte : Prop :=
  (∀ (s : State) (q : List Byte) (d : Nat), fetchInstr { s with randIn := q, draws := d } = fetchInstr s) ∧
  ∀ (i : Instr) (s : State) (q : List Byte) (d : Nat), (∀ x kk, i ≠ .opCxkk x kk) →
    exec i { s with randIn := q, draws := d } = onNext (fun t => { t with randIn := q, draws := d }) (exec i s)

/-- R23 (which the spec derives itself): the register access table. An instruction writes no register outside its
"writes" column, Fx0A none in a step that does not retire it (retiring moves `pc`), and a register outside its "reads"
column matters to nothing but itself: another value in it leads to the same outcome and the same of everything else. -/
def Obligations.RegisterAccessTable : Prop :=
  (∀ (i : Instr) (s t : State), exec i s = .next t → SameRegsExcept (regsWritten i) s t) ∧
  (∀ (x : Reg) (s t : State), exec (.opFx0A x) s = .next t → t.pc = s.pc → SameRegsExcept [] s t) ∧
  (∀ (i : Instr) (s : State) (r : Reg) (b : Byte), r ∉ regsRead i →
    (∀ t, exec i s = .next t →
      ∃ t', exec i (setReg s r b) = .next t' ∧ { t' with v := t.v } = t ∧ SameRegsExcept [r] t t') ∧
    (∀ f, exec i s = .fault f → exec i (setReg s r b) = .fault f))

/-! ### Index register and memory transfer -/

/-- R191, R193: Annn and Fx29 complete in every state; only `I` and `pc` change. That Fx29 gives `5 * Vx` rests on
`font_base = 0x000`, which the spec deduces itself (N3, assumption 23), and that Vx is not masked on its own decision D29
(assumption 16). -/
def Obligations.IndexLoadsComplete : Prop :=
  ∀ (s : State) (x : Reg) (nnn : Addr12),
    (∃ t, exec (.opAnnn nnn) s = .next t ∧ t.i.toNat = nnn.toNat ∧ t.pc = s.pc + 2 ∧
      SameRegsExcept [] s t ∧ SameMem s t ∧ SameStack s t ∧ SameTimers s t ∧ SameKeypad s t ∧ SameRandom s t) ∧
    (∃ t, exec (.opFx29 x) s = .next t ∧ t.i.toNat = 5 * (getReg s x).toNat ∧ t.pc = s.pc + 2 ∧
      SameRegsExcept [] s t ∧ SameMem s t ∧ SameStack s t ∧ SameTimers s t ∧ SameKeypad s t ∧ SameRandom s t)

/-- R192, its width of 12 bits the spec's own decision D1 (assumption 2): Fx1E completes in every state and wraps modulo
4096; only `I` and `pc` change, so no flag is written. -/
def Obligations.IndexAddWraps : Prop :=
  ∀ (s : State) (x : Reg),
    ∃ t, exec (.opFx1E x) s = .next t ∧ t.i.toNat = (s.i.toNat + (getReg s x).toNat) % 4096 ∧ t.pc = s.pc + 2 ∧
      SameRegsExcept [] s t ∧ SameMem s t ∧ SameStack s t ∧ SameTimers s t ∧ SameKeypad s t ∧ SameRandom s t

/-- R28, R192: the index adder at either value of the parameter `I_WIDTH`, 12 or 16 (assumption 2). -/
def Obligations.IndexAdderWrapsAtEitherWidth : Prop :=
  ∀ vx : Byte,
    (∀ i : BitVec 12, (indexAdd 12 i vx).toNat = (i.toNat + vx.toNat) % 4096) ∧
    (∀ i : BitVec 16, (indexAdd 16 i vx).toNat = (i.toNat + vx.toNat) % 65536)

/-- R194: Fx33 stores the three decimal digits of Vx at `I`, `I + 1`, `I + 2` and nothing else, where these are in
memory and past the font; otherwise it faults (the spec's own decisions D2, D4, assumption 10). Canonical memory is the
model's invariant. -/
def Obligations.BcdStoresTheThreeDigits : Prop :=
  ∀ (s : State) (x : Reg), memWf s.mem = true →
    (0x050 ≤ s.i.toNat → s.i.toNat + 2 ≤ 0xFFF →
      ∃ t, exec (.opFx33 x) s = .next t ∧
        (memRead t.mem (effAddr s 0)).toNat = (getReg s x).toNat / 100 ∧
        (memRead t.mem (effAddr s 1)).toNat = (getReg s x).toNat / 10 % 10 ∧
        (memRead t.mem (effAddr s 2)).toNat = (getReg s x).toNat % 10 ∧
        t.pc = s.pc + 2 ∧ OnlyRegsMemAndPc [] (fun a => effAddr s 0 ≤ a ∧ a ≤ effAddr s 2) s t) ∧
    (s.i.toNat + 2 > 0xFFF → exec (.opFx33 x) s = .fault (.addressOutOfRange (encode (.opFx33 x)))) ∧
    (s.i.toNat < 0x050 → exec (.opFx33 x) s = .fault (.fontWrite (encode (.opFx33 x))))

/-- R198: Fx55 stores V0 to Vx at ascending addresses from `I` and nothing else, `I` unchanged (the spec's own decision
D25, assumption 16); otherwise it faults (its decisions D2, D4, assumption 10). Canonical memory is the model's
invariant. -/
def Obligations.RegisterBlockIsStored : Prop :=
  ∀ (s : State) (x : Reg), memWf s.mem = true →
    (0x050 ≤ s.i.toNat → s.i.toNat + x.toNat ≤ 0xFFF →
      ∃ t, exec (.opFx55 x) s = .next t ∧
        (∀ k : Reg, k.toNat ≤ x.toNat → memRead t.mem (effAddr s k.toNat) = getReg s k) ∧
        t.pc = s.pc + 2 ∧ OnlyRegsMemAndPc [] (fun a => effAddr s 0 ≤ a ∧ a ≤ effAddr s x.toNat) s t) ∧
    (s.i.toNat + x.toNat > 0xFFF → exec (.opFx55 x) s = .fault (.addressOutOfRange (encode (.opFx55 x)))) ∧
    (s.i.toNat < 0x050 → exec (.opFx55 x) s = .fault (.fontWrite (encode (.opFx55 x))))

/-- R199: Fx65 loads V0 to Vx from ascending addresses from `I`, the font region included, and changes nothing else;
where the block leaves memory it faults (the spec's own decision D2, assumption 10); `I` is unchanged (D25, assumption
16). -/
def Obligations.RegisterBlockIsLoaded : Prop :=
  ∀ (s : State) (x : Reg),
    (s.i.toNat + x.toNat ≤ 0xFFF →
      ∃ t, exec (.opFx65 x) s = .next t ∧
        (∀ k : Reg, k.toNat ≤ x.toNat → getReg t k = memRead s.mem (s.i.toNat + k.toNat)) ∧
        (∀ k : Reg, k.toNat > x.toNat → getReg t k = getReg s k) ∧
        t.pc = s.pc + 2 ∧ SameMem s t ∧ t.i = s.i ∧ SameStack s t ∧ SameTimers s t ∧ SameKeypad s t ∧ SameRandom s t) ∧
    (s.i.toNat + x.toNat > 0xFFF → exec (.opFx65 x) s = .fault (.addressOutOfRange (encode (.opFx65 x))))

/-- R198, R199 together: a block stored by Fx55 is loaded back by Fx65 in any later state with that memory and `I`. -/
def Obligations.StoredBlockLoadsBack : Prop :=
  ∀ (s t u : State) (x : Reg), memWf s.mem = true → exec (.opFx55 x) s = .next t → u.mem = t.mem → u.i = s.i →
    ∃ w, exec (.opFx65 x) u = .next w ∧ ∀ k : Reg, k.toNat ≤ x.toNat → getReg w k = getReg s k

/-- R79 (which the spec derives itself): a store is seen by the very next fetch, wherever `pc` then is: the digits of
Fx33, the registers of Fx55, the zeros of 00E0, the sprite of Dxyn (what `drawSprite` leaves in memory is stated, byte
outside and pixel inside the display, by the statements on Dxyn) and the program of a LOAD that fits, at their own
addresses, and at every other address the byte that stood there. That a LOAD may come at any time is the spec's own
decision D22 (assumption 19). Canonical memory is the model's invariant. -/
def Obligations.StoredCodeIsFetchedNext : Prop :=
  ∀ s : State, memWf s.mem = true →
    (∀ x t, exec (.opFx33 x) s = .next t →
      FetchSees t fun a =>
        if a = s.i.toNat then BitVec.ofNat 8 ((getReg s x).toNat / 100)
        else if a = s.i.toNat + 1 then BitVec.ofNat 8 ((getReg s x).toNat / 10 % 10)
        else if a = s.i.toNat + 2 then BitVec.ofNat 8 ((getReg s x).toNat % 10)
        else memRead s.mem a) ∧
    (∀ x t, exec (.opFx55 x) s = .next t →
      FetchSees t fun a =>
        if s.i.toNat ≤ a ∧ a ≤ s.i.toNat + x.toNat then getReg s (BitVec.ofNat 4 (a - s.i.toNat)) else memRead s.mem a) ∧
    (∀ t, exec .op00E0 s = .next t →
      FetchSees t fun a => if 0xF00 ≤ a ∧ a ≤ 0xFFF then 0 else memRead s.mem a) ∧
    (∀ x y n t, exec (.opDxyn x y n) s = .next t →
      FetchSees t (memRead (drawSprite s.mem s.i.toNat (getReg s x).toNat (getReg s y).toNat n.toNat).mem)) ∧
    (∀ program : List Byte, program.length + 0x200 ≤ 4096 →
      FetchSees (transact (.load program) s).1 fun a =>
        if 0x200 ≤ a ∧ a < 0x200 + program.length then program.getD (a - 0x200) 0 else memRead s.mem a)

/-- R200 (which the spec derives itself): Annn, Fx1E and Fx29 alone write `I`; Fx1E, Fx33, Fx55, Fx65 and Dxyn alone
read it: every other instruction runs the same whatever `I` holds and leaves it alone, and `I` takes no part in fetch.
-/
def Obligations.IndexIsSeenOnlyByItsInstructions : Prop :=
  ∀ (i : Instr) (s : State) (w : BitVec Config.iWidth),
    (∀ t, exec i s = .next t → t.i ≠ s.i → (∃ nnn, i = .opAnnn nnn) ∨ (∃ x, i = .opFx1E x) ∨ (∃ x, i = .opFx29 x)) ∧
    ((∀ nnn, i ≠ .opAnnn nnn) → (∀ x, i ≠ .opFx1E x) → (∀ x, i ≠ .opFx29 x) → (∀ x, i ≠ .opFx33 x) →
      (∀ x, i ≠ .opFx55 x) → (∀ x, i ≠ .opFx65 x) → (∀ x y n, i ≠ .opDxyn x y n) →
      exec i (setIndex s w) = onNext (fun t => setIndex t w) (exec i s)) ∧
    (∀ nnn, i = .opAnnn nnn → exec i (setIndex s w) = exec i s) ∧
    (∀ x, i = .opFx29 x → exec i (setIndex s w) = exec i s) ∧
    fetchInstr (setIndex s w) = fetchInstr s

/-! ### Display -/

/-- R211: 00E0 completes in every state, zeroes the 256 display bytes and changes nothing else but `pc`. Canonical
memory is the model's invariant. -/
def Obligations.ClearZeroesTheDisplay : Prop :=
  ∀ s : State, memWf s.mem = true →
    ∃ t, exec .op00E0 s = .next t ∧ (∀ a, 0xF00 ≤ a → a ≤ 0xFFF → memRead t.mem a = 0) ∧ t.pc = s.pc + 2 ∧
      OnlyRegsMemAndPc [] (fun a => 0xF00 ≤ a ∧ a ≤ 0xFFF) s t

/-- R212, R216: where its rows lie in memory, and always for `n = 0`, Dxyn completes, writes no register but VF, which
it sets to 0 or 1, no byte outside the display buffer, and nothing else but `pc`; where they do not, it faults (the
spec's own decision D2, assumption 10). -/
def Obligations.DrawTouchesOnlyDisplayAndVF : Prop :=
  ∀ (s : State) (x y : Reg) (n : Nibble),
    (n.toNat = 0 ∨ s.i.toNat + n.toNat - 1 ≤ 0xFFF →
      ∃ t, exec (.opDxyn x y n) s = .next t ∧ (getReg t VF = 0 ∨ getReg t VF = 1) ∧
        (n.toNat = 0 → getReg t VF = 0 ∧ SameMem s t) ∧
        t.pc = s.pc + 2 ∧ OnlyRegsMemAndPc [VF] (fun a => 0xF00 ≤ a ∧ a ≤ 0xFFF) s t) ∧
    (n.toNat > 0 → s.i.toNat + n.toNat - 1 > 0xFFF →
      exec (.opDxyn x y n) s = .fault (.addressOutOfRange (encode (.opDxyn x y n))))

/-- R213, R214, R215, R217, the time of the read the spec's own decision D9 (assumption 9): one more row. The row of an
(n+1)-row draw that an n-row draw does not have is read from memory as the first n rows left it, also where the sprite
lies in the display; it toggles exactly the wrapped pixels its bits cover, and sets VF exactly when it meets a lit one,
VF staying 1 once set. With the empty draw of the frame statement this fixes every draw. With `x = 15` or `y = 15` the
coordinate is the old VF (the spec's own decision D8, assumption 8). Which bit of which byte a pixel is, is R44's and
stated by `DisplayPixelsAreLaidOutByRows`. Canonical memory is the model's invariant. -/
def Obligations.EachSpriteRowIsReadAfterTheRowsBefore : Prop :=
  ∀ (s t u : State) (x y : Reg) (n n' : Nibble), memWf s.mem = true → n'.toNat = n.toNat + 1 →
    exec (.opDxyn x y n) s = .next t → exec (.opDxyn x y n') s = .next u →
    let covers := rowCovers (memRead t.mem (s.i.toNat + n.toNat)) (getReg s x).toNat ((getReg s y).toNat + n.toNat)
    (∀ px py, px < 64 → py < 32 →
      (covers px py → pixelLit u.mem px py = !pixelLit t.mem px py) ∧
      (¬ covers px py → pixelLit u.mem px py = pixelLit t.mem px py)) ∧
    (getReg u VF = 1 ↔ getReg t VF = 1 ∨ ∃ px py, px < 64 ∧ py < 32 ∧ covers px py ∧ pixelLit t.mem px py = true)

/-- R212, R213, R215: for a sprite whose source lies below the display buffer, Dxyn toggles exactly the wrapped pixels
that its set source bits cover, and VF ends 1 exactly when one of them was lit. With `x = 15` or `y = 15` the coordinate
is the old VF (the spec's own decision D8, assumption 8). Which bit of which byte a pixel is, is R44's and stated by
`DisplayPixelsAreLaidOutByRows`. Canonical memory is the model's invariant. -/
def Obligations.DrawXorsTheSpriteOntoTheDisplay : Prop :=
  ∀ (s : State) (x y : Reg) (n : Nibble), memWf s.mem = true → s.i.toNat + n.toNat ≤ 0xF00 →
    let covers := spriteCovers s.mem s.i.toNat (getReg s x).toNat (getReg s y).toNat n.toNat
    ∃ t, exec (.opDxyn x y n) s = .next t ∧
      (∀ px py, px < 64 → py < 32 →
        (covers px py → pixelLit t.mem px py = !pixelLit s.mem px py) ∧
        (¬ covers px py → pixelLit t.mem px py = pixelLit s.mem px py)) ∧
      (getReg t VF = 1 ↔ ∃ px py, px < 64 ∧ py < 32 ∧ covers px py ∧ pixelLit s.mem px py = true) ∧
      (getReg t VF = 0 ↔ ¬ ∃ px py, px < 64 ∧ py < 32 ∧ covers px py ∧ pixelLit s.mem px py = true)

/-- R212 and R213 together: a sprite below the display buffer drawn twice at one place leaves memory as it was. On a
blank display the first draw reports no collision and the second reports one exactly when the sprite has a set bit.
Canonical memory is the model's invariant. -/
def Obligations.DrawingTwiceRestoresTheDisplay : Prop :=
  ∀ (s t u w : State) (x y : Reg) (n : Nibble), memWf s.mem = true → s.i.toNat + n.toNat ≤ 0xF00 →
    exec (.opDxyn x y n) s = .next t →
    u.mem = t.mem → u.i = s.i → getReg u x = getReg s x → getReg u y = getReg s y →
    exec (.opDxyn x y n) u = .next w →
    w.mem = s.mem ∧
    ((∀ a, 0xF00 ≤ a → a ≤ 0xFFF → memRead s.mem a = 0) →
      getReg t VF = 0 ∧
      (getReg w VF = 1 ↔ ∃ row col, row < n.toNat ∧ col < 8 ∧ (memRead s.mem (s.i.toNat + row)).getLsbD col = true))

/-! ### Keypad and timers -/

/-- R233, R235, R236: the timer moves complete in every state and change only their destination and `pc`. -/
def Obligations.TimerMovesComplete : Prop :=
  ∀ (s : State) (x : Reg),
    (∃ t, exec (.opFx07 x) s = .next t ∧ getReg t x = s.dt ∧ t.pc = s.pc + 2 ∧ OnlyRegsAndPc [x] s t) ∧
    (∃ t, exec (.opFx15 x) s = .next t ∧ t.dt = getReg s x ∧ t.st = s.st ∧ t.pc = s.pc + 2 ∧
      SameRegsExcept [] s t ∧ SameMem s t ∧ t.i = s.i ∧ SameStack s t ∧ SameKeypad s t ∧ SameRandom s t) ∧
    (∃ t, exec (.opFx18 x) s = .next t ∧ t.st = getReg s x ∧ t.dt = s.dt ∧ t.pc = s.pc + 2 ∧
      SameRegsExcept [] s t ∧ SameMem s t ∧ t.i = s.i ∧ SameStack s t ∧ SameKeypad s t ∧ SameRandom s t)

/-- R234, R238: Fx0A does exactly one row of its table: it waits, latches the lowest held key, waits for release of all
keys, or retires with the latched key; `pc` moves only when it retires. That `KW.key` keeps its value at retirement is
the spec's own choice (R40, "this spec keeps it"; assumption 15). -/
def Obligations.KeyWaitFollowsItsTable : Prop :=
  ∀ (s : State) (x : Reg),
    (s.kw.latched = false → s.keys = 0 → exec (.opFx0A x) s = .next s) ∧
    (s.kw.latched = false → s.keys ≠ 0 →
      ∃ t, exec (.opFx0A x) s = .next t ∧ t.kw.latched = true ∧ s.keys.getLsbD t.kw.key.toNat = true ∧
        (∀ j, j < t.kw.key.toNat → s.keys.getLsbD j = false) ∧ t.pc = s.pc ∧ t.keys = s.keys ∧
        SameRegsExcept [] s t ∧ SameMem s t ∧ t.i = s.i ∧ SameStack s t ∧ SameTimers s t ∧ SameRandom s t) ∧
    (s.kw.latched = true → s.keys ≠ 0 → exec (.opFx0A x) s = .next s) ∧
    (s.kw.latched = true → s.keys = 0 →
      ∃ t, exec (.opFx0A x) s = .next t ∧ (getReg t x).toNat = s.kw.key.toNat ∧ t.kw.latched = false ∧
        t.kw.key = s.kw.key ∧ t.pc = s.pc + 2 ∧ t.keys = s.keys ∧
        SameRegsExcept [x] s t ∧ SameMem s t ∧ t.i = s.i ∧ SameStack s t ∧ SameTimers s t ∧ SameRandom s t)

/-- R41, the spec's own decision D21 (assumption 15): the latch is read and written by Fx0A alone and cleared by reset:
the fetch and every other instruction run the same whatever the latch holds and leave it, and so does every host
operation but RESET and a STEP. -/
def Obligations.LatchIsSeenOnlyByFx0A : Prop :=
  (∀ (i : Instr) (s : State) (kw : KeyWait), (∀ x, i ≠ .opFx0A x) →
    exec i (setWait s kw) = onNext (fun t => setWait t kw) (exec i s)) ∧
  (∀ (s : State) (kw : KeyWait), fetchInstr (setWait s kw) = fetchInstr s) ∧
  (∀ (o : HostOp) (s : State) (kw : KeyWait), o ≠ .reset → (∀ r, o ≠ .step r) →
    transact o (setWait s kw) = (setWait (transact o s).1 kw, (transact o s).2)) ∧
  (∀ s : State, (transact .reset s).1.kw = { latched := false, key := 0 })

/-! ### Writers and invariants -/

/-- R49 (which the spec derives itself), its instruction column: which instructions write each item of state; nothing
below 0x050 is ever written. -/
def Obligations.InstructionsWriteOnlyTheirState : Prop :=
  ∀ (i : Instr) (s t : State), exec i s = .next t →
    (∀ a, memRead t.mem a ≠ memRead s.mem a →
      0x050 ≤ a ∧ a ≤ 0xFFF ∧
      ((∃ x, i = .opFx33 x) ∨ (∃ x, i = .opFx55 x) ∨ (0xF00 ≤ a ∧ (i = .op00E0 ∨ ∃ x y n, i = .opDxyn x y n)))) ∧
    (t.i ≠ s.i → (∃ nnn, i = .opAnnn nnn) ∨ (∃ x, i = .opFx1E x) ∨ (∃ x, i = .opFx29 x)) ∧
    (¬ SameStack s t → (∃ nnn, i = .op2nnn nnn) ∨ i = .op00EE) ∧
    (t.dt ≠ s.dt → ∃ x, i = .opFx15 x) ∧
    (t.st ≠ s.st → ∃ x, i = .opFx18 x) ∧
    t.keys = s.keys ∧
    (t.kw ≠ s.kw → ∃ x, i = .opFx0A x) ∧
    (¬ SameRandom s t → ∃ x kk, i = .opCxkk x kk)

/-- R49 (which the spec derives itself), its host column: what each host operation but RESET and STEP may write. -/
def Obligations.HostOperationsWriteOnlyTheirState : Prop :=
  ∀ (o : HostOp) (s : State), o ≠ .reset → (∀ r, o ≠ .step r) →
    let t := (transact o s).1
    (∀ a, memRead t.mem a ≠ memRead s.mem a → 0x200 ≤ a ∧ a ≤ 0xFFF ∧ ∃ p, o = .load p) ∧
    t.v = s.v ∧ t.i = s.i ∧ t.pc = s.pc ∧ SameStack s t ∧ SameRandom s t ∧
    (t.dt ≠ s.dt → o = .tick) ∧ (t.st ≠ s.st → o = .tick) ∧
    (t.keys ≠ s.keys → (∃ k, o = .keyDown k) ∨ ∃ k, o = .keyUp k) ∧ t.kw = s.kw

/-- R47: the value of every item after reset; the font is the parameter `FONT`, whose bytes are assumption 1's and are
not used here. -/
def Obligations.ResetValues : Prop :=
  (∀ a, a < 0x050 → memRead State.reset.mem a = Config.fontByte a) ∧
  (∀ a, 0x050 ≤ a → memRead State.reset.mem a = 0) ∧
  (∀ r, getReg State.reset r = 0) ∧ State.reset.i = 0 ∧ State.reset.pc = 0x0200 ∧ State.reset.sp.val = 0 ∧
  (∀ k : Fin Config.stackDepth, State.reset.stack[k.val] = 0) ∧ State.reset.dt = 0 ∧ State.reset.st = 0 ∧
  State.reset.keys = 0 ∧ State.reset.kw = { latched := false, key := 0 }

/-- R291 (which the spec derives itself; that RESET may come at any time is its own decision D15, assumption 18): no
item of R20 survives a reset. The random source is the host's and no item of R20: its two fields are the model's own and
are kept (assumption 4). -/
def Obligations.ResetIsTotal : Prop :=
  ∀ s : State, (transact .reset s).1 = { State.reset with randIn := s.randIn, draws := s.draws }

/-- The invariant (R26, R48 and R125, the last two derived by the spec itself, with the model's own canonical memory,
assumption 7) holds right after reset. -/
def Obligations.ResetMeetsTheInvariant : Prop := Inv State.reset

/-- Every step keeps the invariant: canonical memory (the model's own form, assumption 7), the font in place and `SP` even
(R48, which the spec derives itself), `pc` at most 0x10FE (R26), every slot the address of a fetched instruction (R125,
derived likewise). -/
def Obligations.StepKeepsTheInvariant : Prop :=
  ∀ s t : State, Inv s → step s = .next t → Inv t

/-- Every operation of the interface, LOAD of any program and STEP with any `rand` included, keeps the invariant of
`StepKeepsTheInvariant` (R26, R48, R125; the canonical form is the model's own, assumption 7). -/
def Obligations.EveryHostOperationKeepsTheInvariant : Prop :=
  ∀ (o : HostOp) (s : State), Inv s → Inv (transact o s).1

/-- The invariant holds of every state the operations reach: canonical memory (the model's own form, assumption 7), the
font in place and `SP` even (R48, which the spec derives itself), the bound of `pc` (R26) and the bound of the slots
(R125, derived likewise). -/
def Obligations.ReachableStatesMeetTheInvariant : Prop :=
  ∀ s : State, Reachable s → Inv s

/-- Canonical memory: equal bytes at every address are equal data (the model's own form, assumption 7). -/
def Obligations.EqualBytesAreEqualMemories : Prop :=
  ∀ m m' : List Host.Cell, memWf m = true → memWf m' = true →
    (∀ a, a ≤ 0xFFF → memRead m a = memRead m' a) → m = m'

/-! ### The host's operations -/

/-- R271: a tick takes each timer down by one, floored at 0, and changes nothing else. -/
def Obligations.TickDecrementsBothTimers : Prop :=
  ∀ s : State,
    let t := (transact .tick s).1
    t.dt.toNat = s.dt.toNat - 1 ∧ t.st.toNat = s.st.toNat - 1 ∧ { t with dt := s.dt, st := s.st } = s

/-- R272 and R273: KEY_DOWN sets and KEY_UP clears the bit of its key and changes nothing else. That an index is 4 bits,
so that none is out of range, is the spec's own decision D13 (assumption 20). -/
def Obligations.KeyEventsChangeOneBit : Prop :=
  ∀ (s : State) (k : Key),
    (∀ j, j < 16 → (transact (.keyDown k) s).1.keys.getLsbD j = (s.keys.getLsbD j || decide (j = k.toNat))) ∧
    (∀ j, j < 16 → (transact (.keyUp k) s).1.keys.getLsbD j = (s.keys.getLsbD j && decide (j ≠ k.toNat))) ∧
    { (transact (.keyDown k) s).1 with keys := s.keys } = s ∧
    { (transact (.keyUp k) s).1 with keys := s.keys } = s

/-- R294: a program that fits is copied to 0x200 and up and nothing else changes; one that does not is refused and
nothing at all changes. That it is so at any time, a second LOAD included, is the spec's own decision D22 (assumption
19), and that a LOAD during a key wait keeps the latch is its decision D21 (assumption 15). Canonical memory is the
model's invariant. -/
def Obligations.LoadCopiesOrRefuses : Prop :=
  ∀ (s : State) (program : List Byte), memWf s.mem = true →
    let r := transact (.load program) s
    (program.length + 0x200 ≤ 4096 →
      r.2 = .loaded true ∧
      (∀ (j : Nat) (h : j < program.length), memRead r.1.mem (0x200 + j) = program[j]) ∧
      (∀ a, a < 0x200 ∨ 0x200 + program.length ≤ a → memRead r.1.mem a = memRead s.mem a) ∧
      { r.1 with mem := s.mem } = s) ∧
    (program.length + 0x200 > 4096 → r = (s, .loaded false))

/-- R274, R275: the display port gives the 256 display bytes in address order, the beep output is `ST > 0`, and neither
read changes anything. -/
def Obligations.DisplayAndBeepAreReadOnly : Prop :=
  ∀ s : State,
    (∃ buffer, transact .display s = (s, .bytes buffer) ∧ buffer.length = 256 ∧
      ∀ (j : Nat) (h : j < buffer.length), buffer[j] = memRead s.mem (0xF00 + j)) ∧
    transact .beep s = (s, .level (decide (s.st.toNat > 0)))

/-! ### The layout of the display -/

/-- R44: which bit of which byte each pixel of the display is: rows of 8 bytes one after another from 0xF00, the
leftmost pixel of a byte its most significant bit. It makes the statements told through `pixelLit` say where in memory
a pixel lies. -/
def Obligations.DisplayPixelsAreLaidOutByRows : Prop :=
  ∀ (m : List Host.Cell) (px py : Nat), px < 64 → py < 32 →
    pixelLit m px py = (memRead m (0xF00 + 8 * py + px / 8)).getLsbD (7 - px % 8)
end

