-- ==== Sys2Proof/Laws/Decode.lean ====
section
/-! SUPPORT. What each field of rule R91 reads from each format of rule R92. -/

namespace Sys2Proof

/-- Appending bits is scaling and adding. -/
theorem toNat_append_eq {m n : Nat} (a : BitVec m) (b : BitVec n) : (a ++ b).toNat = a.toNat * 2 ^ n + b.toNat := by
  rw [BitVec.toNat_append, ← Nat.shiftLeft_add_eq_or_of_lt b.isLt, Nat.shiftLeft_eq]

/-- A field of a word, as a number. -/
theorem toNat_field {w : Nat} (op : BitVec w) (lo len : Nat) :
    (op.extractLsb' lo len).toNat = op.toNat / 2 ^ lo % 2 ^ len := by
  rw [BitVec.extractLsb'_toNat, Nat.shiftRight_eq_div_pow]

theorem toNat_wordA (t : Nibble) (nnn : Addr12) : (wordA t nnn).toNat = 4096 * t.toNat + nnn.toNat := by
  rw [wordA, toNat_append_eq]; omega

theorem toNat_wordXK (t : Nibble) (x : Reg) (low : Byte) :
    (wordXK t x low).toNat = 4096 * t.toNat + 256 * x.toNat + low.toNat := by
  rw [wordXK, toNat_append_eq, toNat_append_eq]; omega

theorem toNat_wordXY (t : Nibble) (x y : Reg) (low : Nibble) :
    (wordXY t x y low).toNat = 4096 * t.toNat + 256 * x.toNat + 16 * y.toNat + low.toNat := by
  rw [wordXY, toNat_append_eq, toNat_append_eq, toNat_append_eq]; omega

@[simp] theorem fieldT_wordA (t : Nibble) (nnn : Addr12) : fieldT (wordA t nnn) = t := by
  apply BitVec.eq_of_toNat_eq
  rw [fieldT, toNat_field, toNat_wordA]
  omega

@[simp] theorem fieldNNN_wordA (t : Nibble) (nnn : Addr12) : fieldNNN (wordA t nnn) = nnn := by
  apply BitVec.eq_of_toNat_eq
  rw [fieldNNN, toNat_field, toNat_wordA]
  omega

@[simp] theorem fieldT_wordXK (t : Nibble) (x : Reg) (low : Byte) : fieldT (wordXK t x low) = t := by
  apply BitVec.eq_of_toNat_eq
  rw [fieldT, toNat_field, toNat_wordXK]
  omega

@[simp] theorem fieldX_wordXK (t : Nibble) (x : Reg) (low : Byte) : fieldX (wordXK t x low) = x := by
  apply BitVec.eq_of_toNat_eq
  rw [fieldX, toNat_field, toNat_wordXK]
  omega

@[simp] theorem fieldKK_wordXK (t : Nibble) (x : Reg) (low : Byte) : fieldKK (wordXK t x low) = low := by
  apply BitVec.eq_of_toNat_eq
  rw [fieldKK, toNat_field, toNat_wordXK]
  omega

@[simp] theorem fieldT_wordXY (t : Nibble) (x y : Reg) (low : Nibble) : fieldT (wordXY t x y low) = t := by
  apply BitVec.eq_of_toNat_eq
  rw [fieldT, toNat_field, toNat_wordXY]
  omega

@[simp] theorem fieldX_wordXY (t : Nibble) (x y : Reg) (low : Nibble) : fieldX (wordXY t x y low) = x := by
  apply BitVec.eq_of_toNat_eq
  rw [fieldX, toNat_field, toNat_wordXY]
  omega

@[simp] theorem fieldY_wordXY (t : Nibble) (x y : Reg) (low : Nibble) : fieldY (wordXY t x y low) = y := by
  apply BitVec.eq_of_toNat_eq
  rw [fieldY, toNat_field, toNat_wordXY]
  omega

@[simp] theorem fieldN_wordXY (t : Nibble) (x y : Reg) (low : Nibble) : fieldN (wordXY t x y low) = low := by
  apply BitVec.eq_of_toNat_eq
  rw [fieldN, toNat_field, toNat_wordXY]
  omega

/-- The word is read back from its two bytes. -/
@[simp] theorem wordOfBytes_bytesOfWord (op : Word16) :
    wordOfBytes (op.extractLsb' 8 8) (op.extractLsb' 0 8) = op := by
  apply BitVec.eq_of_toNat_eq
  rw [wordOfBytes, toNat_append_eq, toNat_field, toNat_field]
  omega

/-- The number two bytes spell, the first the higher (rule R60). -/
theorem toNat_wordOfBytes (hi lo : Byte) : (wordOfBytes hi lo).toNat = hi.toNat * 256 + lo.toNat :=
  toNat_append_eq hi lo

end Sys2Proof
end

