-- ==== Sys2Proof/Laws/State.lean ====
section
/-! SUPPORT. What each update of the state leaves in each field: one lemma per field per update, true by rfl, so that no
proof unfolds a record update; and how the register file reads after each. -/

namespace Sys2Proof.Machine

/-! ### setReg -/

@[simp] theorem setReg_mem (s : State) (r : Reg) (b : Byte) : (setReg s r b).mem = s.mem := rfl
@[simp] theorem setReg_i (s : State) (r : Reg) (b : Byte) : (setReg s r b).i = s.i := rfl
@[simp] theorem setReg_pc (s : State) (r : Reg) (b : Byte) : (setReg s r b).pc = s.pc := rfl
@[simp] theorem setReg_sp (s : State) (r : Reg) (b : Byte) : (setReg s r b).sp = s.sp := rfl
@[simp] theorem setReg_stack (s : State) (r : Reg) (b : Byte) : (setReg s r b).stack = s.stack := rfl
@[simp] theorem setReg_dt (s : State) (r : Reg) (b : Byte) : (setReg s r b).dt = s.dt := rfl
@[simp] theorem setReg_st (s : State) (r : Reg) (b : Byte) : (setReg s r b).st = s.st := rfl
@[simp] theorem setReg_keys (s : State) (r : Reg) (b : Byte) : (setReg s r b).keys = s.keys := rfl
@[simp] theorem setReg_kw (s : State) (r : Reg) (b : Byte) : (setReg s r b).kw = s.kw := rfl
@[simp] theorem setReg_randIn (s : State) (r : Reg) (b : Byte) : (setReg s r b).randIn = s.randIn := rfl
@[simp] theorem setReg_draws (s : State) (r : Reg) (b : Byte) : (setReg s r b).draws = s.draws := rfl

/-! ### setPc -/

@[simp] theorem setPc_mem (s : State) (p : Word16) : (setPc s p).mem = s.mem := rfl
@[simp] theorem setPc_v (s : State) (p : Word16) : (setPc s p).v = s.v := rfl
@[simp] theorem setPc_i (s : State) (p : Word16) : (setPc s p).i = s.i := rfl
@[simp] theorem setPc_pc (s : State) (p : Word16) : (setPc s p).pc = p := rfl
@[simp] theorem setPc_sp (s : State) (p : Word16) : (setPc s p).sp = s.sp := rfl
@[simp] theorem setPc_stack (s : State) (p : Word16) : (setPc s p).stack = s.stack := rfl
@[simp] theorem setPc_dt (s : State) (p : Word16) : (setPc s p).dt = s.dt := rfl
@[simp] theorem setPc_st (s : State) (p : Word16) : (setPc s p).st = s.st := rfl
@[simp] theorem setPc_keys (s : State) (p : Word16) : (setPc s p).keys = s.keys := rfl
@[simp] theorem setPc_kw (s : State) (p : Word16) : (setPc s p).kw = s.kw := rfl
@[simp] theorem setPc_randIn (s : State) (p : Word16) : (setPc s p).randIn = s.randIn := rfl
@[simp] theorem setPc_draws (s : State) (p : Word16) : (setPc s p).draws = s.draws := rfl
@[simp] theorem getReg_setPc (s : State) (p : Word16) (q : Reg) : getReg (setPc s p) q = getReg s q := rfl

/-! ### advance -/

@[simp] theorem advance_mem (s : State) : (advance s).mem = s.mem := rfl
@[simp] theorem advance_v (s : State) : (advance s).v = s.v := rfl
@[simp] theorem advance_i (s : State) : (advance s).i = s.i := rfl
@[simp] theorem advance_pc (s : State) : (advance s).pc = s.pc + 2 := rfl
@[simp] theorem advance_sp (s : State) : (advance s).sp = s.sp := rfl
@[simp] theorem advance_stack (s : State) : (advance s).stack = s.stack := rfl
@[simp] theorem advance_dt (s : State) : (advance s).dt = s.dt := rfl
@[simp] theorem advance_st (s : State) : (advance s).st = s.st := rfl
@[simp] theorem advance_keys (s : State) : (advance s).keys = s.keys := rfl
@[simp] theorem advance_kw (s : State) : (advance s).kw = s.kw := rfl
@[simp] theorem advance_randIn (s : State) : (advance s).randIn = s.randIn := rfl
@[simp] theorem advance_draws (s : State) : (advance s).draws = s.draws := rfl
@[simp] theorem getReg_advance (s : State) (q : Reg) : getReg (advance s) q = getReg s q := rfl

/-! ### skipIf -/

@[simp] theorem skipIf_mem (s : State) (c : Bool) : (skipIf c s).mem = s.mem := rfl
@[simp] theorem skipIf_v (s : State) (c : Bool) : (skipIf c s).v = s.v := rfl
@[simp] theorem skipIf_i (s : State) (c : Bool) : (skipIf c s).i = s.i := rfl
@[simp] theorem skipIf_pc (s : State) (c : Bool) : (skipIf c s).pc = if c then s.pc + 4 else s.pc + 2 := rfl
@[simp] theorem skipIf_sp (s : State) (c : Bool) : (skipIf c s).sp = s.sp := rfl
@[simp] theorem skipIf_stack (s : State) (c : Bool) : (skipIf c s).stack = s.stack := rfl
@[simp] theorem skipIf_dt (s : State) (c : Bool) : (skipIf c s).dt = s.dt := rfl
@[simp] theorem skipIf_st (s : State) (c : Bool) : (skipIf c s).st = s.st := rfl
@[simp] theorem skipIf_keys (s : State) (c : Bool) : (skipIf c s).keys = s.keys := rfl
@[simp] theorem skipIf_kw (s : State) (c : Bool) : (skipIf c s).kw = s.kw := rfl
@[simp] theorem skipIf_randIn (s : State) (c : Bool) : (skipIf c s).randIn = s.randIn := rfl
@[simp] theorem skipIf_draws (s : State) (c : Bool) : (skipIf c s).draws = s.draws := rfl
@[simp] theorem getReg_skipIf (s : State) (c : Bool) (q : Reg) : getReg (skipIf c s) q = getReg s q := rfl

/-! ### setIndex -/

@[simp] theorem setIndex_mem (s : State) (w : BitVec Config.iWidth) : (setIndex s w).mem = s.mem := rfl
@[simp] theorem setIndex_v (s : State) (w : BitVec Config.iWidth) : (setIndex s w).v = s.v := rfl
@[simp] theorem setIndex_i (s : State) (w : BitVec Config.iWidth) : (setIndex s w).i = w := rfl
@[simp] theorem setIndex_pc (s : State) (w : BitVec Config.iWidth) : (setIndex s w).pc = s.pc := rfl
@[simp] theorem setIndex_sp (s : State) (w : BitVec Config.iWidth) : (setIndex s w).sp = s.sp := rfl
@[simp] theorem setIndex_stack (s : State) (w : BitVec Config.iWidth) : (setIndex s w).stack = s.stack := rfl
@[simp] theorem setIndex_dt (s : State) (w : BitVec Config.iWidth) : (setIndex s w).dt = s.dt := rfl
@[simp] theorem setIndex_st (s : State) (w : BitVec Config.iWidth) : (setIndex s w).st = s.st := rfl
@[simp] theorem setIndex_keys (s : State) (w : BitVec Config.iWidth) : (setIndex s w).keys = s.keys := rfl
@[simp] theorem setIndex_kw (s : State) (w : BitVec Config.iWidth) : (setIndex s w).kw = s.kw := rfl
@[simp] theorem setIndex_randIn (s : State) (w : BitVec Config.iWidth) : (setIndex s w).randIn = s.randIn := rfl
@[simp] theorem setIndex_draws (s : State) (w : BitVec Config.iWidth) : (setIndex s w).draws = s.draws := rfl
@[simp] theorem getReg_setIndex (s : State) (w : BitVec Config.iWidth) (q : Reg) : getReg (setIndex s w) q = getReg s q := rfl

/-! ### setMem -/

@[simp] theorem setMem_mem (s : State) (m : List Host.Cell) : (setMem s m).mem = m := rfl
@[simp] theorem setMem_v (s : State) (m : List Host.Cell) : (setMem s m).v = s.v := rfl
@[simp] theorem setMem_i (s : State) (m : List Host.Cell) : (setMem s m).i = s.i := rfl
@[simp] theorem setMem_pc (s : State) (m : List Host.Cell) : (setMem s m).pc = s.pc := rfl
@[simp] theorem setMem_sp (s : State) (m : List Host.Cell) : (setMem s m).sp = s.sp := rfl
@[simp] theorem setMem_stack (s : State) (m : List Host.Cell) : (setMem s m).stack = s.stack := rfl
@[simp] theorem setMem_dt (s : State) (m : List Host.Cell) : (setMem s m).dt = s.dt := rfl
@[simp] theorem setMem_st (s : State) (m : List Host.Cell) : (setMem s m).st = s.st := rfl
@[simp] theorem setMem_keys (s : State) (m : List Host.Cell) : (setMem s m).keys = s.keys := rfl
@[simp] theorem setMem_kw (s : State) (m : List Host.Cell) : (setMem s m).kw = s.kw := rfl
@[simp] theorem setMem_randIn (s : State) (m : List Host.Cell) : (setMem s m).randIn = s.randIn := rfl
@[simp] theorem setMem_draws (s : State) (m : List Host.Cell) : (setMem s m).draws = s.draws := rfl
@[simp] theorem getReg_setMem (s : State) (m : List Host.Cell) (q : Reg) : getReg (setMem s m) q = getReg s q := rfl

/-! ### setDelay -/

@[simp] theorem setDelay_mem (s : State) (b : Byte) : (setDelay s b).mem = s.mem := rfl
@[simp] theorem setDelay_v (s : State) (b : Byte) : (setDelay s b).v = s.v := rfl
@[simp] theorem setDelay_i (s : State) (b : Byte) : (setDelay s b).i = s.i := rfl
@[simp] theorem setDelay_pc (s : State) (b : Byte) : (setDelay s b).pc = s.pc := rfl
@[simp] theorem setDelay_sp (s : State) (b : Byte) : (setDelay s b).sp = s.sp := rfl
@[simp] theorem setDelay_stack (s : State) (b : Byte) : (setDelay s b).stack = s.stack := rfl
@[simp] theorem setDelay_dt (s : State) (b : Byte) : (setDelay s b).dt = b := rfl
@[simp] theorem setDelay_st (s : State) (b : Byte) : (setDelay s b).st = s.st := rfl
@[simp] theorem setDelay_keys (s : State) (b : Byte) : (setDelay s b).keys = s.keys := rfl
@[simp] theorem setDelay_kw (s : State) (b : Byte) : (setDelay s b).kw = s.kw := rfl
@[simp] theorem setDelay_randIn (s : State) (b : Byte) : (setDelay s b).randIn = s.randIn := rfl
@[simp] theorem setDelay_draws (s : State) (b : Byte) : (setDelay s b).draws = s.draws := rfl
@[simp] theorem getReg_setDelay (s : State) (b : Byte) (q : Reg) : getReg (setDelay s b) q = getReg s q := rfl

/-! ### setSound -/

@[simp] theorem setSound_mem (s : State) (b : Byte) : (setSound s b).mem = s.mem := rfl
@[simp] theorem setSound_v (s : State) (b : Byte) : (setSound s b).v = s.v := rfl
@[simp] theorem setSound_i (s : State) (b : Byte) : (setSound s b).i = s.i := rfl
@[simp] theorem setSound_pc (s : State) (b : Byte) : (setSound s b).pc = s.pc := rfl
@[simp] theorem setSound_sp (s : State) (b : Byte) : (setSound s b).sp = s.sp := rfl
@[simp] theorem setSound_stack (s : State) (b : Byte) : (setSound s b).stack = s.stack := rfl
@[simp] theorem setSound_dt (s : State) (b : Byte) : (setSound s b).dt = s.dt := rfl
@[simp] theorem setSound_st (s : State) (b : Byte) : (setSound s b).st = b := rfl
@[simp] theorem setSound_keys (s : State) (b : Byte) : (setSound s b).keys = s.keys := rfl
@[simp] theorem setSound_kw (s : State) (b : Byte) : (setSound s b).kw = s.kw := rfl
@[simp] theorem setSound_randIn (s : State) (b : Byte) : (setSound s b).randIn = s.randIn := rfl
@[simp] theorem setSound_draws (s : State) (b : Byte) : (setSound s b).draws = s.draws := rfl
@[simp] theorem getReg_setSound (s : State) (b : Byte) (q : Reg) : getReg (setSound s b) q = getReg s q := rfl

/-! ### setKeys -/

@[simp] theorem setKeys_mem (s : State) (k : Word16) : (setKeys s k).mem = s.mem := rfl
@[simp] theorem setKeys_v (s : State) (k : Word16) : (setKeys s k).v = s.v := rfl
@[simp] theorem setKeys_i (s : State) (k : Word16) : (setKeys s k).i = s.i := rfl
@[simp] theorem setKeys_pc (s : State) (k : Word16) : (setKeys s k).pc = s.pc := rfl
@[simp] theorem setKeys_sp (s : State) (k : Word16) : (setKeys s k).sp = s.sp := rfl
@[simp] theorem setKeys_stack (s : State) (k : Word16) : (setKeys s k).stack = s.stack := rfl
@[simp] theorem setKeys_dt (s : State) (k : Word16) : (setKeys s k).dt = s.dt := rfl
@[simp] theorem setKeys_st (s : State) (k : Word16) : (setKeys s k).st = s.st := rfl
@[simp] theorem setKeys_keys (s : State) (k : Word16) : (setKeys s k).keys = k := rfl
@[simp] theorem setKeys_kw (s : State) (k : Word16) : (setKeys s k).kw = s.kw := rfl
@[simp] theorem setKeys_randIn (s : State) (k : Word16) : (setKeys s k).randIn = s.randIn := rfl
@[simp] theorem setKeys_draws (s : State) (k : Word16) : (setKeys s k).draws = s.draws := rfl
@[simp] theorem getReg_setKeys (s : State) (k : Word16) (q : Reg) : getReg (setKeys s k) q = getReg s q := rfl

/-! ### setWait -/

@[simp] theorem setWait_mem (s : State) (w : KeyWait) : (setWait s w).mem = s.mem := rfl
@[simp] theorem setWait_v (s : State) (w : KeyWait) : (setWait s w).v = s.v := rfl
@[simp] theorem setWait_i (s : State) (w : KeyWait) : (setWait s w).i = s.i := rfl
@[simp] theorem setWait_pc (s : State) (w : KeyWait) : (setWait s w).pc = s.pc := rfl
@[simp] theorem setWait_sp (s : State) (w : KeyWait) : (setWait s w).sp = s.sp := rfl
@[simp] theorem setWait_stack (s : State) (w : KeyWait) : (setWait s w).stack = s.stack := rfl
@[simp] theorem setWait_dt (s : State) (w : KeyWait) : (setWait s w).dt = s.dt := rfl
@[simp] theorem setWait_st (s : State) (w : KeyWait) : (setWait s w).st = s.st := rfl
@[simp] theorem setWait_keys (s : State) (w : KeyWait) : (setWait s w).keys = s.keys := rfl
@[simp] theorem setWait_kw (s : State) (w : KeyWait) : (setWait s w).kw = w := rfl
@[simp] theorem setWait_randIn (s : State) (w : KeyWait) : (setWait s w).randIn = s.randIn := rfl
@[simp] theorem setWait_draws (s : State) (w : KeyWait) : (setWait s w).draws = s.draws := rfl
@[simp] theorem getReg_setWait (s : State) (w : KeyWait) (q : Reg) : getReg (setWait s w) q = getReg s q := rfl

/-! ### resultThenFlag -/

@[simp] theorem resultThenFlag_mem (s : State) (r : Reg) (b c : Byte) : (resultThenFlag s r b c).mem = s.mem := rfl
@[simp] theorem resultThenFlag_i (s : State) (r : Reg) (b c : Byte) : (resultThenFlag s r b c).i = s.i := rfl
@[simp] theorem resultThenFlag_pc (s : State) (r : Reg) (b c : Byte) : (resultThenFlag s r b c).pc = s.pc := rfl
@[simp] theorem resultThenFlag_sp (s : State) (r : Reg) (b c : Byte) : (resultThenFlag s r b c).sp = s.sp := rfl
@[simp] theorem resultThenFlag_stack (s : State) (r : Reg) (b c : Byte) : (resultThenFlag s r b c).stack = s.stack := rfl
@[simp] theorem resultThenFlag_dt (s : State) (r : Reg) (b c : Byte) : (resultThenFlag s r b c).dt = s.dt := rfl
@[simp] theorem resultThenFlag_st (s : State) (r : Reg) (b c : Byte) : (resultThenFlag s r b c).st = s.st := rfl
@[simp] theorem resultThenFlag_keys (s : State) (r : Reg) (b c : Byte) : (resultThenFlag s r b c).keys = s.keys := rfl
@[simp] theorem resultThenFlag_kw (s : State) (r : Reg) (b c : Byte) : (resultThenFlag s r b c).kw = s.kw := rfl
@[simp] theorem resultThenFlag_randIn (s : State) (r : Reg) (b c : Byte) : (resultThenFlag s r b c).randIn = s.randIn := rfl
@[simp] theorem resultThenFlag_draws (s : State) (r : Reg) (b c : Byte) : (resultThenFlag s r b c).draws = s.draws := rfl

/-! ### flagThenResult -/

@[simp] theorem flagThenResult_mem (s : State) (r : Reg) (b c : Byte) : (flagThenResult s r b c).mem = s.mem := rfl
@[simp] theorem flagThenResult_i (s : State) (r : Reg) (b c : Byte) : (flagThenResult s r b c).i = s.i := rfl
@[simp] theorem flagThenResult_pc (s : State) (r : Reg) (b c : Byte) : (flagThenResult s r b c).pc = s.pc := rfl
@[simp] theorem flagThenResult_sp (s : State) (r : Reg) (b c : Byte) : (flagThenResult s r b c).sp = s.sp := rfl
@[simp] theorem flagThenResult_stack (s : State) (r : Reg) (b c : Byte) : (flagThenResult s r b c).stack = s.stack := rfl
@[simp] theorem flagThenResult_dt (s : State) (r : Reg) (b c : Byte) : (flagThenResult s r b c).dt = s.dt := rfl
@[simp] theorem flagThenResult_st (s : State) (r : Reg) (b c : Byte) : (flagThenResult s r b c).st = s.st := rfl
@[simp] theorem flagThenResult_keys (s : State) (r : Reg) (b c : Byte) : (flagThenResult s r b c).keys = s.keys := rfl
@[simp] theorem flagThenResult_kw (s : State) (r : Reg) (b c : Byte) : (flagThenResult s r b c).kw = s.kw := rfl
@[simp] theorem flagThenResult_randIn (s : State) (r : Reg) (b c : Byte) : (flagThenResult s r b c).randIn = s.randIn := rfl
@[simp] theorem flagThenResult_draws (s : State) (r : Reg) (b c : Byte) : (flagThenResult s r b c).draws = s.draws := rfl

/-! ### loadRegs -/

@[simp] theorem loadRegs_mem (s : State) (x : Reg) : (loadRegs s x).mem = s.mem := rfl
@[simp] theorem loadRegs_i (s : State) (x : Reg) : (loadRegs s x).i = s.i := rfl
@[simp] theorem loadRegs_pc (s : State) (x : Reg) : (loadRegs s x).pc = s.pc := rfl
@[simp] theorem loadRegs_sp (s : State) (x : Reg) : (loadRegs s x).sp = s.sp := rfl
@[simp] theorem loadRegs_stack (s : State) (x : Reg) : (loadRegs s x).stack = s.stack := rfl
@[simp] theorem loadRegs_dt (s : State) (x : Reg) : (loadRegs s x).dt = s.dt := rfl
@[simp] theorem loadRegs_st (s : State) (x : Reg) : (loadRegs s x).st = s.st := rfl
@[simp] theorem loadRegs_keys (s : State) (x : Reg) : (loadRegs s x).keys = s.keys := rfl
@[simp] theorem loadRegs_kw (s : State) (x : Reg) : (loadRegs s x).kw = s.kw := rfl
@[simp] theorem loadRegs_randIn (s : State) (x : Reg) : (loadRegs s x).randIn = s.randIn := rfl
@[simp] theorem loadRegs_draws (s : State) (x : Reg) : (loadRegs s x).draws = s.draws := rfl

/-! ### drawRandom -/

@[simp] theorem drawRandom_mem (s : State) : (drawRandom s).mem = s.mem := rfl
@[simp] theorem drawRandom_v (s : State) : (drawRandom s).v = s.v := rfl
@[simp] theorem drawRandom_i (s : State) : (drawRandom s).i = s.i := rfl
@[simp] theorem drawRandom_pc (s : State) : (drawRandom s).pc = s.pc := rfl
@[simp] theorem drawRandom_sp (s : State) : (drawRandom s).sp = s.sp := rfl
@[simp] theorem drawRandom_stack (s : State) : (drawRandom s).stack = s.stack := rfl
@[simp] theorem drawRandom_dt (s : State) : (drawRandom s).dt = s.dt := rfl
@[simp] theorem drawRandom_st (s : State) : (drawRandom s).st = s.st := rfl
@[simp] theorem drawRandom_keys (s : State) : (drawRandom s).keys = s.keys := rfl
@[simp] theorem drawRandom_kw (s : State) : (drawRandom s).kw = s.kw := rfl
@[simp] theorem getReg_drawRandom (s : State) (q : Reg) : getReg (drawRandom s) q = getReg s q := rfl

/-! ### The register file -/

/-- A register reads as it was last written, every other one as before. -/
@[simp] theorem getReg_setReg (s : State) (r : Reg) (b : Byte) (q : Reg) :
    getReg (setReg s r b) q = if q = r then b else getReg s q := by
  unfold getReg setReg
  simp only [Vector.getElem_set, BitVec.toNat_inj, eq_comm (a := r)]

/-- What Fx65 leaves in each register. -/
@[simp] theorem getReg_loadRegs (s : State) (x q : Reg) :
    getReg (loadRegs s x) q = if q.toNat ≤ x.toNat then memRead s.mem (effAddr s q.toNat) else getReg s q := by
  simp [getReg, loadRegs]

@[simp] theorem drawRandom_cons (s : State) (r : Byte) (rs : List Byte) (h : s.randIn = r :: rs) :
    (drawRandom s).randIn = rs ∧ (drawRandom s).draws = s.draws := by simp [drawRandom, h]

@[simp] theorem drawRandom_nil (s : State) (h : s.randIn = []) :
    (drawRandom s).randIn = [] ∧ (drawRandom s).draws = s.draws + 1 := by simp [drawRandom, h]

end Sys2Proof.Machine
end

