-- ==== Sys2Proof/Laws/Memory.lean ====
section
/-! SUPPORT. The laws of memory: a write keeps the canonical form, the byte written is the byte read, and every other
byte is left alone. -/

namespace Sys2Proof.Machine

theorem memWfFrom_mono {lo lo' : Nat} {m : List Host.Cell} (h : memWfFrom lo m = true) (hl : lo' ≤ lo) :
    memWfFrom lo' m = true := by
  cases m with
  | nil => rfl
  | cons c m =>
    obtain ⟨k, b⟩ := c
    simp only [memWfFrom, Bool.and_eq_true, decide_eq_true_eq] at h ⊢
    exact ⟨⟨⟨by omega, h.1.1.2⟩, h.1.2⟩, h.2⟩

theorem memWf_of_memWfFrom {lo : Nat} {m : List Host.Cell} (h : memWfFrom lo m = true) : memWf m = true :=
  memWfFrom_mono h (Nat.zero_le _)

/-- Below the first listed address nothing is listed. -/
theorem memRead_of_lt {lo a : Nat} {m : List Host.Cell} (h : memWfFrom lo m = true) (ha : a < lo) :
    memRead m a = unlisted a := by
  induction m generalizing lo with
  | nil => rfl
  | cons c m ih =>
    obtain ⟨k, b⟩ := c
    simp only [memWfFrom, Bool.and_eq_true, decide_eq_true_eq] at h
    rw [memRead, if_neg (by omega)]
    exact ih h.2 (by omega)

theorem memRead_memCell_append_self {m : List Host.Cell} {a : Nat} {b : Byte} (h : memRead m a = unlisted a) :
    memRead (memCell a b ++ m) a = b := by
  unfold memCell
  split <;> simp_all [memRead]

theorem memRead_memCell_append_ne {m : List Host.Cell} {a c : Nat} {b : Byte} (h : c ≠ a) :
    memRead (memCell a b ++ m) c = memRead m c := by
  unfold memCell
  split <;> simp [memRead, Ne.symm h]

theorem memRead_memPut_self {lo a : Nat} {m : List Host.Cell} {b : Byte} (h : memWfFrom lo m = true) :
    memRead (memPut m a b) a = b := by
  induction m generalizing lo with
  | nil => simpa [memPut] using memRead_memCell_append_self (m := []) (a := a) (b := b) rfl
  | cons c m ih =>
    obtain ⟨k, d⟩ := c
    simp only [memWfFrom, Bool.and_eq_true, decide_eq_true_eq] at h
    unfold memPut
    split
    · rw [memRead, if_neg (by omega)]
      exact ih h.2
    · split
      · exact memRead_memCell_append_self (memRead_of_lt h.2 (by omega))
      · refine memRead_memCell_append_self ?_
        rw [memRead, if_neg (by omega)]
        exact memRead_of_lt h.2 (by omega)

theorem memRead_memPut_ne {m : List Host.Cell} {a c : Nat} {b : Byte} (h : c ≠ a) :
    memRead (memPut m a b) c = memRead m c := by
  induction m with
  | nil => simpa [memPut] using memRead_memCell_append_ne (m := []) (a := a) (b := b) h
  | cons e m ih =>
    obtain ⟨k, d⟩ := e
    unfold memPut
    split
    · simp only [memRead, ih]
    · split
      · rw [memRead_memCell_append_ne h, memRead, if_neg (by omega)]
      · exact memRead_memCell_append_ne h

theorem memWfFrom_memPut {lo a : Nat} {m : List Host.Cell} {b : Byte} (h : memWfFrom lo m = true) (hlo : lo ≤ a)
    (ha : a < Config.memSize) : memWfFrom lo (memPut m a b) = true := by
  have cell (m' : List Host.Cell) (h' : memWfFrom (a + 1) m' = true) : memWfFrom lo (memCell a b ++ m') = true := by
    unfold memCell
    split
    · exact memWfFrom_mono h' (by omega)
    · simp only [List.cons_append, List.nil_append, memWfFrom, Bool.and_eq_true, decide_eq_true_eq]
      exact ⟨⟨⟨hlo, ha⟩, ‹_›⟩, h'⟩
  induction m generalizing lo with
  | nil => simpa [memPut] using cell [] rfl
  | cons c m ih =>
    obtain ⟨k, d⟩ := c
    have hc := h
    simp only [memWfFrom, Bool.and_eq_true, decide_eq_true_eq] at h
    unfold memPut
    split
    · simp only [memWfFrom, Bool.and_eq_true, decide_eq_true_eq]
      refine ⟨h.1, ih h.2 (by omega) fun m' h' => ?_⟩
      unfold memCell
      split
      · exact memWfFrom_mono h' (by omega)
      · simp only [List.cons_append, List.nil_append, memWfFrom, Bool.and_eq_true, decide_eq_true_eq]
        exact ⟨⟨⟨by omega, ha⟩, ‹_›⟩, h'⟩
    · split
      · exact cell m (memWfFrom_mono h.2 (by omega))
      · refine cell _ ?_
        simp only [memWfFrom, Bool.and_eq_true, decide_eq_true_eq]
        exact ⟨⟨⟨by omega, h.1.1.2⟩, h.1.2⟩, h.2⟩

/-- A write keeps the canonical form. -/
theorem memWf_memWrite {m : List Host.Cell} (h : memWf m = true) (a : Nat) (b : Byte) :
    memWf (memWrite m a b) = true := by
  unfold memWrite
  split
  · exact memWfFrom_memPut h (Nat.zero_le _) ‹_›
  · exact h

/-- A write leaves every other byte alone. -/
theorem memRead_memWrite_ne {m : List Host.Cell} {a c : Nat} {b : Byte} (h : c ≠ a) :
    memRead (memWrite m a b) c = memRead m c := by
  unfold memWrite
  split
  · exact memRead_memPut_ne h
  · rfl

/-- The byte written is the byte read. -/
theorem memRead_memWrite_self {m : List Host.Cell} (h : memWf m = true) {a : Nat} {b : Byte}
    (ha : a < Config.memSize) : memRead (memWrite m a b) a = b := by
  rw [memWrite, if_pos ha]
  exact memRead_memPut_self h

/-- Writing bytes keeps the canonical form. -/
theorem memWf_memWriteBytes {m : List Host.Cell} (h : memWf m = true) (a : Nat) (bs : List Byte) :
    memWf (memWriteBytes m a bs) = true := by
  induction bs generalizing m a with
  | nil => exact h
  | cons b bs ih => exact ih (memWf_memWrite h a b) (a + 1)

/-- Writing bytes leaves every address outside the block alone. -/
theorem memRead_memWriteBytes_outside {m : List Host.Cell} {a c : Nat} {bs : List Byte}
    (h : c < a ∨ a + bs.length ≤ c) : memRead (memWriteBytes m a bs) c = memRead m c := by
  induction bs generalizing m a with
  | nil => rfl
  | cons b bs ih =>
    simp only [List.length_cons] at h
    rw [memWriteBytes, ih (by omega), memRead_memWrite_ne (by omega)]

/-- Byte `k` of the block is read back at `a + k`. -/
theorem memRead_memWriteBytes_inside {m : List Host.Cell} (hm : memWf m = true) {a k : Nat} {bs : List Byte}
    (hk : k < bs.length) (ha : a + k < Config.memSize) : memRead (memWriteBytes m a bs) (a + k) = bs[k] := by
  induction bs generalizing m a k with
  | nil => simp at hk
  | cons b bs ih =>
    rw [memWriteBytes]
    cases k with
    | zero => rw [memRead_memWriteBytes_outside (by omega)]; exact memRead_memWrite_self hm (by omega)
    | succ k =>
      have := ih (memWf_memWrite hm a b) (a := a + 1) (k := k) (by simpa using hk) (by omega)
      simpa [Nat.add_assoc, Nat.add_comm 1 k] using this

/-- Nothing is listed outside memory. -/
theorem memRead_above {m : List Host.Cell} {lo a : Nat} (h : memWfFrom lo m = true) (ha : Config.memSize ≤ a) :
    memRead m a = 0 := by
  induction m generalizing lo with
  | nil => simp only [memRead, unlisted]; rw [if_neg (by simp only [Config.memSize, Config.fontEnd] at *; omega)]
  | cons c m ih =>
    obtain ⟨k, b⟩ := c
    simp only [memWfFrom, Bool.and_eq_true, decide_eq_true_eq] at h
    rw [memRead, if_neg (by omega)]
    exact ih h.2

theorem memWf_reset : memWf State.reset.mem = true := rfl

end Sys2Proof.Machine
end

