-- ==== Sys2Proof/Laws/Ops.lean ====
section
/-! SUPPORT. For each shared operation, one lemma that says once everything it can do. -/

namespace Sys2Proof.Machine

/-! ### Guards -/

/-- A guarded meaning goes on exactly when there is no fault. -/
theorem guarded_eq_next {f : Option Fault} {t u : State} : guarded f t = .next u ↔ f = none ∧ t = u := by
  cases f <;> simp [guarded, raise]

/-- A guarded meaning faults exactly with its fault. -/
theorem guarded_eq_fault {f : Option Fault} {t : State} {r : Fault} : guarded f t = .fault r ↔ f = some r := by
  cases f <;> simp [guarded, raise]

theorem guarded_ne_refused {f : Option Fault} {t : State} {r : Refusal} : guarded f t ≠ .refused r := by
  cases f <;> simp [guarded, raise]

/-! ### The stack -/

/-- A push finds a free slot and takes the next one, or there is none. -/
theorem pushReturn_cases (s : State) (a : Word16) :
    (∃ h : s.sp.val / 2 < Config.stackDepth, ∃ h' : s.sp.val + 2 < Config.spLimit + 1,
      pushReturn s a = some { s with stack := s.stack.set (s.sp.val / 2) a h, sp := ⟨s.sp.val + 2, h'⟩ }) ∨
    (Config.spLimit < s.sp.val + 2 ∧ pushReturn s a = none) := by
  unfold pushReturn
  split
  · exact .inl ⟨by simp only [Config.spLimit] at *; omega, by omega, rfl⟩
  · exact .inr ⟨by omega, rfl⟩

/-- A pop takes the newest address off and leaves its slot, or there is none. -/
theorem popReturn_cases (s : State) :
    (2 ≤ s.sp.val ∧ ∃ h : (s.sp.val - 2) / 2 < Config.stackDepth, ∃ h' : s.sp.val - 2 < Config.spLimit + 1,
      popReturn s = some (s.stack[(s.sp.val - 2) / 2], { s with sp := ⟨s.sp.val - 2, h'⟩ })) ∨
    (s.sp.val < 2 ∧ popReturn s = none) := by
  unfold popReturn
  split
  · exact .inl ⟨‹_›, by have := s.sp.isLt; simp only [Config.spLimit] at this; omega, by omega, rfl⟩
  · exact .inr ⟨by omega, rfl⟩

/-! ### Addressing -/

theorem blockInRange_iff {s : State} {count : Nat} :
    blockInRange s count = true ↔ count = 0 ∨ s.i.toNat + (count - 1) ≤ 0xFFF := by
  simp only [blockInRange, Bool.or_eq_true, beq_iff_eq, decide_eq_true_eq]
  rfl

/-- Reading through `I` faults exactly when a byte of the block lies above memory. -/
theorem loadFault_eq {op : Word16} {count : Nat} {s : State} :
    loadFault op count s = if count = 0 ∨ s.i.toNat + (count - 1) ≤ 0xFFF then none else some (.addressOutOfRange op) := by
  unfold loadFault
  simp only [blockInRange_iff]

/-- Storing through `I` faults when a byte of the block lies above memory, or, else, when the first lies in the font. -/
theorem storeFault_eq {op : Word16} {count : Nat} {s : State} :
    storeFault op count s =
      if count = 0 ∨ s.i.toNat + (count - 1) ≤ 0xFFF then
        if s.i.toNat < 0x050 then some (.fontWrite op) else none
      else some (.addressOutOfRange op) := by
  unfold storeFault
  simp only [blockInRange_iff]
  rfl

@[simp] theorem length_bcdDigits (b : Byte) : (bcdDigits b).length = 3 := rfl

@[simp] theorem length_regBlock (s : State) (x : Reg) : (regBlock s x).length = blockLength x := by
  have := x.isLt
  simp only [regBlock, blockLength, List.length_take, Vector.length_toList]
  omega

/-- Byte `k` of the block is V`k`. -/
theorem getElem_regBlock (s : State) (x k : Reg) (h : k.toNat < (regBlock s x).length) :
    (regBlock s x)[k.toNat] = getReg s k := by
  simp [regBlock, getReg]

/-! ### Fetch -/

/-- A fetch finds its instruction exactly when both bytes lie in memory and their word decodes to it. -/
theorem fetchInstr_eq_ok {s : State} {i : Instr} :
    fetchInstr s = .ok i ↔ s.pc.toNat ≤ 0xFFE ∧ decodeWord (memReadWord s.mem s.pc.toNat) = .ok i := by
  have hr : fetchInRange s = true ↔ s.pc.toNat ≤ 0xFFE := by
    simp only [fetchInRange, decide_eq_true_eq, Config.lastAddr]; omega
  unfold fetchInstr fetchWord
  by_cases h : s.pc.toNat ≤ 0xFFE
  · rw [if_pos (hr.mpr h)]
    cases decodeWord (memReadWord s.mem s.pc.toNat) <;> simp [h]
  · rw [if_neg (fun h' => h (hr.mp h'))]
    simp [h]

/-- A step that completes ran the instruction at `pc`. -/
theorem step_eq_next {s t : State} (h : step s = .next t) :
    ∃ i, s.pc.toNat ≤ 0xFFE ∧ decodeWord (memReadWord s.mem s.pc.toNat) = .ok i ∧ exec i s = .next t := by
  unfold step at h
  split at h
  · exact ⟨_, (fetchInstr_eq_ok.mp ‹_›).1, (fetchInstr_eq_ok.mp ‹_›).2, h⟩
  · cases h

/-! ### Keys -/

theorem keyIndex_of_le {b : Byte} (h : b.toNat ≤ 15) : ∃ k : Key, keyIndex b = some k ∧ k.toNat = b.toNat := by
  refine ⟨_, by rw [keyIndex, if_pos h], ?_⟩
  rw [BitVec.toNat_setWidth]
  omega

theorem keyIndex_of_gt {b : Byte} (h : b.toNat > 15) : keyIndex b = none := by
  rw [keyIndex, if_neg (by omega)]

/-- With a key held, `lowestKey` is a held key and none below it is held. -/
theorem lowestKey_spec {keys : Word16} (h : keys ≠ 0) :
    keys.getLsbD (lowestKey keys).toNat = true ∧ ∀ j, j < (lowestKey keys).toNat → keys.getLsbD j = false := by
  unfold lowestKey
  cases hf : (List.range 16).find? fun k => keys.getLsbD k with
  | none =>
    refine absurd (BitVec.eq_of_getLsbD_eq fun k hk => ?_) h
    have := List.find?_eq_none.mp hf k (List.mem_range.mpr hk)
    simpa using this
  | some k =>
    have hb : keys.getLsbD k = true := by simpa using List.find?_some hf
    have hk : k < 16 := List.mem_range.mp (List.mem_of_find?_eq_some hf)
    have hn : (BitVec.ofNat 4 k).toNat = k := by rw [BitVec.toNat_ofNat]; omega
    rw [Option.getD_some, hn]
    refine ⟨hb, fun j hj => ?_⟩
    obtain ⟨_, as, bs, hs, has⟩ := List.find?_eq_some_iff_append.mp hf
    have hl : as.length = k := by
      have h1 : (List.range 16)[as.length]? = some k := by rw [hs]; simp
      rw [List.getElem?_eq_some_iff] at h1
      obtain ⟨_, h1⟩ := h1
      simpa using h1
    have hm : j ∈ as := by
      have h1 : (List.range 16)[j]? = some j := List.getElem?_range (by omega)
      rw [hs, List.getElem?_append_left (by omega)] at h1
      exact List.mem_of_getElem? h1
    simpa using has j hm

/-! ### The host's operations -/

/-- A tick is the difference floored at 0. -/
theorem toNat_tickDown (b : Byte) : (tickDown b).toNat = b.toNat - 1 := by
  revert b
  decide

/-- The mask of a key has that key's bit alone. -/
theorem getLsbD_keyBit (k : Key) {j : Nat} (hj : j < 16) : (keyBit k).getLsbD j = decide (j = k.toNat) := by
  have key : ∀ k < 16, ∀ j < 16, (1#16 <<< k).getLsbD j = decide (j = k) := by decide
  exact key k.toNat k.isLt j hj

/-- A program fits exactly when its length says so. -/
theorem imageWellFormed_iff {program : List Byte} :
    imageWellFormed program = true ↔ program.length + 0x200 ≤ 4096 := by
  simp only [imageWellFormed, decide_eq_true_eq]

/-! ### Flags -/

@[simp] theorem toNat_flagByte (c : Bool) : (flagByte c).toNat = if c then 1 else 0 := by cases c <;> rfl

theorem flagByte_eq_one {c : Bool} : flagByte c = 1 ↔ c = true := by cases c <;> decide

theorem flagByte_eq_zero {c : Bool} : flagByte c = 0 ↔ c = false := by cases c <;> decide

/-- The bit shifted out to the right is the remainder by 2. -/
theorem toNat_lowBitFlag (a : Byte) : (lowBitFlag a).toNat = a.toNat % 2 := by
  rw [lowBitFlag, toNat_flagByte, BitVec.getLsbD, Nat.testBit_eq_decide_div_mod_eq]
  split <;> simp_all

/-- The bit shifted out to the left is the quotient by 128. -/
theorem toNat_highBitFlag (a : Byte) : (highBitFlag a).toNat = a.toNat / 128 := by
  have := a.isLt
  rw [highBitFlag, toNat_flagByte, BitVec.getLsbD, Nat.testBit_eq_decide_div_mod_eq]
  split <;> simp_all <;> omega

/-- Each of the two write orders writes Vx and VF and nothing else; where they are one register the later write stands. -/
theorem getReg_resultThenFlag (s : State) (x q : Reg) (result flag : Byte) :
    getReg (resultThenFlag s x result flag) q = if q = VF then flag else if q = x then result else getReg s q := by
  simp [resultThenFlag]

theorem getReg_flagThenResult (s : State) (x q : Reg) (result flag : Byte) :
    getReg (flagThenResult s x result flag) q = if q = x then result else if q = VF then flag else getReg s q := by
  simp [flagThenResult]

end Sys2Proof.Machine
end

