-- ==== Sys2Proof/Laws/Display.lean ====
section
/-! SUPPORT. The sprite engine: what toggling a pixel, drawing a row and drawing a sprite leave in memory, pixel by pixel. -/

namespace Sys2Proof.Machine

/-! ### Bytes and masks -/

/-- The mask of a column has the one bit of that column. -/
theorem getLsbD_pixelMask (px j : Nat) (hj : j < 8) :
    (pixelMask px).getLsbD j = decide (j = 7 - px % 8) := by
  have key : ∀ k < 8, ∀ j < 8, (0x80#8 >>> k).getLsbD j = decide (j = 7 - k) := by decide
  exact key (px % 8) (Nat.mod_lt _ (by decide)) j hj

/-- Masking a byte leaves something exactly when the column's bit is set. -/
theorem and_pixelMask_ne_zero (d : Byte) (px : Nat) : ((d &&& pixelMask px) != 0) = d.getLsbD (7 - px % 8) := by
  cases hb : d.getLsbD (7 - px % 8) with
  | true =>
    refine bne_iff_ne.mpr fun h => ?_
    have := congrArg (fun v => v.getLsbD (7 - px % 8)) h
    simp [BitVec.getLsbD_and, getLsbD_pixelMask px (7 - px % 8) (by omega), hb] at this
  | false =>
    refine bne_eq_false_iff_eq.mpr (BitVec.eq_of_getLsbD_eq fun j hj => ?_)
    rw [BitVec.getLsbD_and, getLsbD_pixelMask px j hj]
    by_cases h : j = 7 - px % 8 <;> simp [h, hb]

/-! ### Pixels -/

theorem pixelAddr_in_display {px py : Nat} (hx : px < 64) (hy : py < 32) :
    0xF00 ≤ pixelAddr px py ∧ pixelAddr px py ≤ 0xFFF := by
  simp only [pixelAddr, Config.displayBase]
  omega

/-- Toggling one pixel: canonical form and other addresses are kept, that pixel alone is inverted, and the collision
output takes in whether it was lit. -/
theorem togglePixel_spec {c : Canvas} (hw : memWf c.mem = true) {px py : Nat} (hx : px < 64) (hy : py < 32) :
    memWf (togglePixel c px py).mem = true ∧
    (∀ a, a < 0xF00 ∨ 0xFFF < a → memRead (togglePixel c px py).mem a = memRead c.mem a) ∧
    (∀ qx qy, qx < 64 → qy < 32 →
      pixelLit (togglePixel c px py).mem qx qy = Bool.xor (pixelLit c.mem qx qy) (decide (qx = px ∧ qy = py))) ∧
    (togglePixel c px py).hit = (c.hit || pixelLit c.mem px py) := by
  have ha := pixelAddr_in_display hx hy
  refine ⟨memWf_memWrite hw _ _, fun a h => memRead_memWrite_ne (by omega), fun qx qy hqx hqy => ?_, ?_⟩
  · by_cases he : pixelAddr qx qy = pixelAddr px py
    · have hq : qy = py ∧ qx / 8 = px / 8 := by
        simp only [pixelAddr, Config.displayBase] at he
        omega
      rw [pixelLit, he, togglePixel, memRead_memWrite_self hw (by simp only [Config.memSize]; omega),
        BitVec.getLsbD_xor, getLsbD_pixelMask px _ (by omega), pixelLit, he]
      congr 1
      simp only [decide_eq_decide]
      omega
    · have hne : ¬ (qx = px ∧ qy = py) := fun h => he (by rw [h.1, h.2])
      rw [pixelLit, togglePixel, memRead_memWrite_ne he, pixelLit]
      simp [hne]
  · simp only [togglePixel, and_pixelMask_ne_zero, pixelLit]

/-! ### Rows -/

/-- The first `k` columns of a row: like `rowCovers`, with the columns below `k`. -/
def columnsCover (b : Byte) (vx row k px py : Nat) : Prop :=
  py = row % 32 ∧ ∃ col, col < k ∧ px = (vx + col) % 64 ∧ b.getLsbD (7 - col) = true

/-- What a part of a draw leaves: canonical form and addresses outside the display kept, exactly the covered pixels
inverted, and the collision output set exactly when it was or a covered pixel was lit. -/
structure Draws (c c' : Canvas) (covers : Nat → Nat → Prop) : Prop where
  wf : memWf c'.mem = true
  outside : ∀ a, a < 0xF00 ∨ 0xFFF < a → memRead c'.mem a = memRead c.mem a
  inside : ∀ px py, px < 64 → py < 32 → covers px py → pixelLit c'.mem px py = !pixelLit c.mem px py
  beside : ∀ px py, px < 64 → py < 32 → ¬ covers px py → pixelLit c'.mem px py = pixelLit c.mem px py
  hit : c'.hit = true ↔ c.hit = true ∨ ∃ px py, px < 64 ∧ py < 32 ∧ covers px py ∧ pixelLit c.mem px py = true

theorem drawColumns_spec {c : Canvas} (hw : memWf c.mem = true) (b : Byte) (vx row : Nat) :
    ∀ k, k ≤ 8 →
      Draws c ((List.range k).foldl (drawColumn b vx (row % 32)) c) (columnsCover b vx row k) := by
  intro k
  induction k with
  | zero =>
    intro _
    refine ⟨hw, fun _ _ => rfl, fun _ _ _ _ h => ?_, fun _ _ _ _ _ => rfl, ⟨.inl, fun h => ?_⟩⟩
    · obtain ⟨_, col, h, _⟩ := h; omega
    · obtain h | ⟨_, _, _, _, ⟨_, col, h, _⟩, _⟩ := h
      · exact h
      · omega
  | succ k ih =>
    intro hk
    have ih := ih (by omega)
    rw [List.range_succ, List.foldl_append, List.foldl_cons, List.foldl_nil]
    generalize (List.range k).foldl (drawColumn b vx (row % 32)) c = d at ih
    have hx : (vx + k) % 64 < 64 := Nat.mod_lt _ (by decide)
    have hy : row % 32 < 32 := Nat.mod_lt _ (by decide)
    unfold drawColumn
    split
    · rename_i hb
      obtain ⟨tw, tout, tp, th⟩ := togglePixel_spec ih.wf hx hy
      have fresh : ∀ py, ¬ columnsCover b vx row k ((vx + k) % 64) py := by
        rintro py ⟨_, col, hc, he, _⟩
        omega
      have split : ∀ px py, columnsCover b vx row (k + 1) px py ↔
          columnsCover b vx row k px py ∨ (px = (vx + k) % 64 ∧ py = row % 32) := by
        intro px py
        constructor
        · rintro ⟨h1, col, h2, h3, h4⟩
          by_cases hcol : col = k
          · subst hcol; exact .inr ⟨h3, h1⟩
          · exact .inl ⟨h1, col, by omega, h3, h4⟩
        · rintro (⟨h1, col, h2, h3, h4⟩ | ⟨h1, h2⟩)
          · exact ⟨h1, col, by omega, h3, h4⟩
          · exact ⟨h2, k, by omega, h1, hb⟩
      refine ⟨tw, fun a h => (tout a h).trans (ih.outside a h), fun px py hpx hpy h => ?_, fun px py hpx hpy h => ?_, ?_⟩
      · rw [tp px py hpx hpy]
        obtain h | ⟨rfl, rfl⟩ := (split px py).mp h
        · have hne : ¬ (px = (vx + k) % 64 ∧ py = row % 32) := by rintro ⟨rfl, _⟩; exact fresh py h
          simp [hne, ih.inside px py hpx hpy h]
        · simp [ih.beside _ _ hpx hpy (fresh _)]
      · rw [split] at h
        obtain ⟨h1, h2⟩ := not_or.mp h
        rw [tp px py hpx hpy, ih.beside px py hpx hpy h1]
        simp [h2]
      · rw [th, Bool.or_eq_true, ih.hit, ih.beside _ _ hx hy (fresh _)]
        constructor
        · rintro ((h | ⟨px, py, h1, h2, h3, h4⟩) | h)
          · exact .inl h
          · exact .inr ⟨px, py, h1, h2, (split px py).mpr (.inl h3), h4⟩
          · exact .inr ⟨_, _, hx, hy, (split _ _).mpr (.inr ⟨rfl, rfl⟩), h⟩
        · rintro (h | ⟨px, py, h1, h2, h3, h4⟩)
          · exact .inl (.inl h)
          · obtain h3 | ⟨rfl, rfl⟩ := (split px py).mp h3
            · exact .inl (.inr ⟨px, py, h1, h2, h3, h4⟩)
            · exact .inr h4
    · rename_i hb
      have same : ∀ px py, columnsCover b vx row (k + 1) px py ↔ columnsCover b vx row k px py := by
        intro px py
        constructor
        · rintro ⟨h1, col, h2, h3, h4⟩
          by_cases hcol : col = k
          · subst hcol; exact absurd h4 hb
          · exact ⟨h1, col, by omega, h3, h4⟩
        · rintro ⟨h1, col, h2, h3, h4⟩
          exact ⟨h1, col, by omega, h3, h4⟩
      have same : columnsCover b vx row (k + 1) = columnsCover b vx row k := by
        funext px py; exact propext (same px py)
      rw [same]
      exact ih

/-- Drawing one row. -/
theorem drawRow_spec {c : Canvas} (hw : memWf c.mem = true) (b : Byte) (vx row : Nat) :
    Draws c (drawRow b vx (row % 32) c) (rowCovers b vx row) :=
  drawColumns_spec hw b vx row 8 (Nat.le_refl 8)

/-! ### Sprites -/

/-- The rows of a sprite, the last one split off. -/
theorem drawSprite_succ (m : List Host.Cell) (i0 vx vy n : Nat) :
    drawSprite m i0 vx vy (n + 1) = drawSpriteRow i0 vx vy (drawSprite m i0 vx vy n) n := by
  rw [drawSprite, List.range_succ, List.foldl_append]
  rfl

/-- A sprite of no rows draws nothing. -/
theorem drawSprite_zero (m : List Host.Cell) (i0 vx vy : Nat) : drawSprite m i0 vx vy 0 = ⟨m, false⟩ := rfl

/-- Drawing keeps the canonical form. -/
theorem memWf_drawSprite {m : List Host.Cell} (hw : memWf m = true) (i0 vx vy n : Nat) :
    memWf (drawSprite m i0 vx vy n).mem = true := by
  induction n with
  | zero => exact hw
  | succ n ih => rw [drawSprite_succ]; exact (drawRow_spec ih _ vx (vy + n)).wf

/-- Drawing leaves every byte outside the display buffer alone, canonical memory or not. -/
theorem memRead_drawSprite_outside (m : List Host.Cell) (i0 vx vy n : Nat) {a : Nat} (h : a < 0xF00 ∨ 0xFFF < a) :
    memRead (drawSprite m i0 vx vy n).mem a = memRead m a := by
  have column (b : Byte) (py : Nat) (hy : py < 32) (c : Canvas) (col : Nat) :
      memRead (drawColumn b vx py c col).mem a = memRead c.mem a := by
    unfold drawColumn
    split
    · have := pixelAddr_in_display (px := (vx + col) % 64) (Nat.mod_lt _ (by decide)) hy
      exact memRead_memWrite_ne (by omega)
    · rfl
  have row (b : Byte) (py : Nat) (hy : py < 32) (l : List Nat) (c : Canvas) :
      memRead (l.foldl (drawColumn b vx py) c).mem a = memRead c.mem a := by
    induction l generalizing c with
    | nil => rfl
    | cons col l ih => rw [List.foldl_cons, ih, column b py hy]
  induction n with
  | zero => rfl
  | succ n ih =>
    rw [drawSprite_succ, drawSpriteRow, drawRow, row _ _ (Nat.mod_lt _ (by decide)), ih]

end Sys2Proof.Machine
end

