-- ==== Sys2Proof/Laws/Fetch.lean ====
section
/-! SUPPORT. What a fetch sees is what memory reads as: the one lemma about `FetchSees`. -/

namespace Sys2Proof.Machine

/-- A state whose memory reads as `b` at every address fetches the bytes of `b`. -/
theorem fetchSees_of_reads {t : State} {b : Nat → Byte} (h : ∀ a, a ≤ 0xFFF → memRead t.mem a = b a) :
    FetchSees t b := by
  intro p hp
  have hr : fetchInRange (setPc t p) = true := decide_eq_true (Nat.succ_le_succ hp)
  have hw : fetchWord (setPc t p) = wordOfBytes (b p.toNat) (b (p.toNat + 1)) := by
    rw [fetchWord, setPc_mem, setPc_pc, memReadWord, h _ (by omega), h _ (by omega)]
  exact ⟨fun i hi => by simp [step, fetchInstr, hr, hw, hi], fun e he => by simp [step, fetchInstr, hr, hw, he, raise]⟩

end Sys2Proof.Machine
end

