-- ==== Sys2Proof/Laws/PerInstr.lean ====
section
/-! SUPPORT. Laws about an instruction as syntax, one lemma per constructor: its word matches its row of the opcode map
(rule R96), and its pattern with the operands filled in is a well-formed opcode and spells that word (rule R12). -/

namespace Sys2Proof.Laws

theorem wordA_and (t : Nibble) (nnn : Addr12) : wordA t nnn &&& 0xF000#16 = wordA t 0#12 := by
  apply BitVec.eq_of_getLsbD_eq
  intro k hk
  have mask : (0xF000#16).getLsbD k = decide (12 ≤ k) := by revert k; decide
  rw [BitVec.getLsbD_and, mask]
  unfold wordA
  rw [BitVec.getLsbD_append, BitVec.getLsbD_append]
  split <;> simp <;> omega

theorem wordXK_and (t : Nibble) (x : Reg) (low : Byte) : wordXK t x low &&& 0xF000#16 = wordXK t 0#4 0#8 := by
  apply BitVec.eq_of_getLsbD_eq
  intro k hk
  have mask : (0xF000#16).getLsbD k = decide (12 ≤ k) := by revert k; decide
  rw [BitVec.getLsbD_and, mask]
  unfold wordXK
  simp only [BitVec.getLsbD_append]
  split <;> [skip; split] <;> simp <;> omega

theorem wordXS_and (t : Nibble) (x : Reg) (low : Byte) : wordXK t x low &&& 0xF0FF#16 = wordXK t 0#4 low := by
  apply BitVec.eq_of_getLsbD_eq
  intro k hk
  have mask : (0xF0FF#16).getLsbD k = decide (12 ≤ k ∨ k < 8) := by revert k; decide
  rw [BitVec.getLsbD_and, mask]
  unfold wordXK
  simp only [BitVec.getLsbD_append]
  split <;> [skip; split] <;> simp <;> omega

theorem wordXYN_and (t : Nibble) (x y : Reg) (low : Nibble) :
    wordXY t x y low &&& 0xF000#16 = wordXY t 0#4 0#4 0#4 := by
  apply BitVec.eq_of_getLsbD_eq
  intro k hk
  have mask : (0xF000#16).getLsbD k = decide (12 ≤ k) := by revert k; decide
  rw [BitVec.getLsbD_and, mask]
  unfold wordXY
  simp only [BitVec.getLsbD_append]
  split <;> [skip; split <;> [skip; split]] <;> simp <;> omega

theorem wordXYS_and (t : Nibble) (x y : Reg) (low : Nibble) :
    wordXY t x y low &&& 0xF00F#16 = wordXY t 0#4 0#4 low := by
  apply BitVec.eq_of_getLsbD_eq
  intro k hk
  have mask : (0xF00F#16).getLsbD k = decide (12 ≤ k ∨ k < 4) := by revert k; decide
  rw [BitVec.getLsbD_and, mask]
  unfold wordXY
  simp only [BitVec.getLsbD_append]
  split <;> [skip; split <;> [skip; split]] <;> simp <;> omega

/-! ### Family RowMatch -/

/-- The instruction's word is one of its own row of the opcode map. -/
def RowMatch.Statement (i : Instr) : Prop := encode i &&& i.row.mask = i.row.bits

theorem RowMatch.op00E0 : RowMatch.Statement .op00E0 := by unfold RowMatch.Statement; decide
theorem RowMatch.op00EE : RowMatch.Statement .op00EE := by unfold RowMatch.Statement; decide
theorem RowMatch.op1nnn (nnn : Addr12) : RowMatch.Statement (.op1nnn nnn) := wordA_and 0x1#4 nnn
theorem RowMatch.op2nnn (nnn : Addr12) : RowMatch.Statement (.op2nnn nnn) := wordA_and 0x2#4 nnn
theorem RowMatch.op3xkk (x : Reg) (kk : Byte) : RowMatch.Statement (.op3xkk x kk) := wordXK_and 0x3#4 x kk
theorem RowMatch.op4xkk (x : Reg) (kk : Byte) : RowMatch.Statement (.op4xkk x kk) := wordXK_and 0x4#4 x kk
theorem RowMatch.op5xy0 (x y : Reg) : RowMatch.Statement (.op5xy0 x y) := wordXYS_and 0x5#4 x y 0x0#4
theorem RowMatch.op6xkk (x : Reg) (kk : Byte) : RowMatch.Statement (.op6xkk x kk) := wordXK_and 0x6#4 x kk
theorem RowMatch.op7xkk (x : Reg) (kk : Byte) : RowMatch.Statement (.op7xkk x kk) := wordXK_and 0x7#4 x kk
theorem RowMatch.op8xy0 (x y : Reg) : RowMatch.Statement (.op8xy0 x y) := wordXYS_and 0x8#4 x y 0x0#4
theorem RowMatch.op8xy1 (x y : Reg) : RowMatch.Statement (.op8xy1 x y) := wordXYS_and 0x8#4 x y 0x1#4
theorem RowMatch.op8xy2 (x y : Reg) : RowMatch.Statement (.op8xy2 x y) := wordXYS_and 0x8#4 x y 0x2#4
theorem RowMatch.op8xy3 (x y : Reg) : RowMatch.Statement (.op8xy3 x y) := wordXYS_and 0x8#4 x y 0x3#4
theorem RowMatch.op8xy4 (x y : Reg) : RowMatch.Statement (.op8xy4 x y) := wordXYS_and 0x8#4 x y 0x4#4
theorem RowMatch.op8xy5 (x y : Reg) : RowMatch.Statement (.op8xy5 x y) := wordXYS_and 0x8#4 x y 0x5#4
theorem RowMatch.op8xy6 (x y : Reg) : RowMatch.Statement (.op8xy6 x y) := wordXYS_and 0x8#4 x y 0x6#4
theorem RowMatch.op8xy7 (x y : Reg) : RowMatch.Statement (.op8xy7 x y) := wordXYS_and 0x8#4 x y 0x7#4
theorem RowMatch.op8xyE (x y : Reg) : RowMatch.Statement (.op8xyE x y) := wordXYS_and 0x8#4 x y 0xE#4
theorem RowMatch.op9xy0 (x y : Reg) : RowMatch.Statement (.op9xy0 x y) := wordXYS_and 0x9#4 x y 0x0#4
theorem RowMatch.opAnnn (nnn : Addr12) : RowMatch.Statement (.opAnnn nnn) := wordA_and 0xA#4 nnn
theorem RowMatch.opBnnn (nnn : Addr12) : RowMatch.Statement (.opBnnn nnn) := wordA_and 0xB#4 nnn
theorem RowMatch.opCxkk (x : Reg) (kk : Byte) : RowMatch.Statement (.opCxkk x kk) := wordXK_and 0xC#4 x kk
theorem RowMatch.opDxyn (x y : Reg) (n : Nibble) : RowMatch.Statement (.opDxyn x y n) := wordXYN_and 0xD#4 x y n
theorem RowMatch.opEx9E (x : Reg) : RowMatch.Statement (.opEx9E x) := wordXS_and 0xE#4 x 0x9E#8
theorem RowMatch.opExA1 (x : Reg) : RowMatch.Statement (.opExA1 x) := wordXS_and 0xE#4 x 0xA1#8
theorem RowMatch.opFx07 (x : Reg) : RowMatch.Statement (.opFx07 x) := wordXS_and 0xF#4 x 0x07#8
theorem RowMatch.opFx0A (x : Reg) : RowMatch.Statement (.opFx0A x) := wordXS_and 0xF#4 x 0x0A#8
theorem RowMatch.opFx15 (x : Reg) : RowMatch.Statement (.opFx15 x) := wordXS_and 0xF#4 x 0x15#8
theorem RowMatch.opFx18 (x : Reg) : RowMatch.Statement (.opFx18 x) := wordXS_and 0xF#4 x 0x18#8
theorem RowMatch.opFx1E (x : Reg) : RowMatch.Statement (.opFx1E x) := wordXS_and 0xF#4 x 0x1E#8
theorem RowMatch.opFx29 (x : Reg) : RowMatch.Statement (.opFx29 x) := wordXS_and 0xF#4 x 0x29#8
theorem RowMatch.opFx33 (x : Reg) : RowMatch.Statement (.opFx33 x) := wordXS_and 0xF#4 x 0x33#8
theorem RowMatch.opFx55 (x : Reg) : RowMatch.Statement (.opFx55 x) := wordXS_and 0xF#4 x 0x55#8
theorem RowMatch.opFx65 (x : Reg) : RowMatch.Statement (.opFx65 x) := wordXS_and 0xF#4 x 0x65#8

/-! ### Family PatternForm -/

/-- The pattern with the operands filled in is a well-formed opcode, and it spells the instruction's word. -/
def PatternForm.Statement (i : Instr) : Prop := i.wellFormed = true ∧ (encode i).toNat = i.nibbles.value

theorem wellFormed_of_listed {w : Nibbles} (ht : w.t < 16) (hx : w.x < 16) (hy : w.y < 16) (hn : w.n < 16)
    (h : w.listed = true) : w.wellFormed = true := by
  simp [Nibbles.wellFormed, Nibbles.inRange, ht, hx, hy, hn, h]

theorem pattern_of_addr {t : Nibble} {nnn : Addr12} (h : ∀ x y n : Nat, Nibbles.listed ⟨t.toNat, x, y, n⟩ = true) :
    (Nibbles.ofAddr t.toNat nnn).wellFormed = true ∧ (wordA t nnn).toNat = (Nibbles.ofAddr t.toNat nnn).value := by
  have hn := nnn.isLt
  refine ⟨wellFormed_of_listed t.isLt ?_ ?_ ?_ (h ..), ?_⟩
  all_goals simp only [Nibbles.ofAddr, Nibbles.value, toNat_wordA]
  all_goals omega

theorem pattern_of_byte {t : Nibble} {x : Reg} {low : Byte}
    (h : Nibbles.listed ⟨t.toNat, x.toNat, low.toNat / 16, low.toNat % 16⟩ = true) :
    (Nibbles.ofByte t.toNat x low).wellFormed = true ∧
      (wordXK t x low).toNat = (Nibbles.ofByte t.toNat x low).value := by
  have hl := low.isLt
  refine ⟨wellFormed_of_listed t.isLt x.isLt ?_ ?_ h, ?_⟩
  all_goals simp only [Nibbles.ofByte, Nibbles.value, toNat_wordXK]
  all_goals omega

theorem pattern_of_regs {t : Nibble} {x y : Reg} {low : Nibble}
    (h : Nibbles.listed ⟨t.toNat, x.toNat, y.toNat, low.toNat⟩ = true) :
    (Nibbles.ofRegs t.toNat x y low.toNat).wellFormed = true ∧
      (wordXY t x y low).toNat = (Nibbles.ofRegs t.toNat x y low.toNat).value :=
  ⟨wellFormed_of_listed t.isLt x.isLt y.isLt low.isLt h, toNat_wordXY t x y low⟩

theorem PatternForm.op00E0 : PatternForm.Statement .op00E0 := by unfold PatternForm.Statement; decide
theorem PatternForm.op00EE : PatternForm.Statement .op00EE := by unfold PatternForm.Statement; decide
theorem PatternForm.op1nnn (nnn : Addr12) : PatternForm.Statement (.op1nnn nnn) := pattern_of_addr (t := 0x1#4) fun _ _ _ => rfl
theorem PatternForm.op2nnn (nnn : Addr12) : PatternForm.Statement (.op2nnn nnn) := pattern_of_addr (t := 0x2#4) fun _ _ _ => rfl
theorem PatternForm.op3xkk (x : Reg) (kk : Byte) : PatternForm.Statement (.op3xkk x kk) := pattern_of_byte (t := 0x3#4) rfl
theorem PatternForm.op4xkk (x : Reg) (kk : Byte) : PatternForm.Statement (.op4xkk x kk) := pattern_of_byte (t := 0x4#4) rfl
theorem PatternForm.op5xy0 (x y : Reg) : PatternForm.Statement (.op5xy0 x y) := pattern_of_regs (t := 0x5#4) (low := 0x0#4) rfl
theorem PatternForm.op6xkk (x : Reg) (kk : Byte) : PatternForm.Statement (.op6xkk x kk) := pattern_of_byte (t := 0x6#4) rfl
theorem PatternForm.op7xkk (x : Reg) (kk : Byte) : PatternForm.Statement (.op7xkk x kk) := pattern_of_byte (t := 0x7#4) rfl
theorem PatternForm.op8xy0 (x y : Reg) : PatternForm.Statement (.op8xy0 x y) := pattern_of_regs (t := 0x8#4) (low := 0x0#4) rfl
theorem PatternForm.op8xy1 (x y : Reg) : PatternForm.Statement (.op8xy1 x y) := pattern_of_regs (t := 0x8#4) (low := 0x1#4) rfl
theorem PatternForm.op8xy2 (x y : Reg) : PatternForm.Statement (.op8xy2 x y) := pattern_of_regs (t := 0x8#4) (low := 0x2#4) rfl
theorem PatternForm.op8xy3 (x y : Reg) : PatternForm.Statement (.op8xy3 x y) := pattern_of_regs (t := 0x8#4) (low := 0x3#4) rfl
theorem PatternForm.op8xy4 (x y : Reg) : PatternForm.Statement (.op8xy4 x y) := pattern_of_regs (t := 0x8#4) (low := 0x4#4) rfl
theorem PatternForm.op8xy5 (x y : Reg) : PatternForm.Statement (.op8xy5 x y) := pattern_of_regs (t := 0x8#4) (low := 0x5#4) rfl
theorem PatternForm.op8xy6 (x y : Reg) : PatternForm.Statement (.op8xy6 x y) := pattern_of_regs (t := 0x8#4) (low := 0x6#4) rfl
theorem PatternForm.op8xy7 (x y : Reg) : PatternForm.Statement (.op8xy7 x y) := pattern_of_regs (t := 0x8#4) (low := 0x7#4) rfl
theorem PatternForm.op8xyE (x y : Reg) : PatternForm.Statement (.op8xyE x y) := pattern_of_regs (t := 0x8#4) (low := 0xE#4) rfl
theorem PatternForm.op9xy0 (x y : Reg) : PatternForm.Statement (.op9xy0 x y) := pattern_of_regs (t := 0x9#4) (low := 0x0#4) rfl
theorem PatternForm.opAnnn (nnn : Addr12) : PatternForm.Statement (.opAnnn nnn) := pattern_of_addr (t := 0xA#4) fun _ _ _ => rfl
theorem PatternForm.opBnnn (nnn : Addr12) : PatternForm.Statement (.opBnnn nnn) := pattern_of_addr (t := 0xB#4) fun _ _ _ => rfl
theorem PatternForm.opCxkk (x : Reg) (kk : Byte) : PatternForm.Statement (.opCxkk x kk) := pattern_of_byte (t := 0xC#4) rfl
theorem PatternForm.opDxyn (x y : Reg) (n : Nibble) : PatternForm.Statement (.opDxyn x y n) := pattern_of_regs (t := 0xD#4) rfl
theorem PatternForm.opEx9E (x : Reg) : PatternForm.Statement (.opEx9E x) := pattern_of_byte (t := 0xE#4) (low := 0x9E#8) rfl
theorem PatternForm.opExA1 (x : Reg) : PatternForm.Statement (.opExA1 x) := pattern_of_byte (t := 0xE#4) (low := 0xA1#8) rfl
theorem PatternForm.opFx07 (x : Reg) : PatternForm.Statement (.opFx07 x) := pattern_of_byte (t := 0xF#4) (low := 0x07#8) rfl
theorem PatternForm.opFx0A (x : Reg) : PatternForm.Statement (.opFx0A x) := pattern_of_byte (t := 0xF#4) (low := 0x0A#8) rfl
theorem PatternForm.opFx15 (x : Reg) : PatternForm.Statement (.opFx15 x) := pattern_of_byte (t := 0xF#4) (low := 0x15#8) rfl
theorem PatternForm.opFx18 (x : Reg) : PatternForm.Statement (.opFx18 x) := pattern_of_byte (t := 0xF#4) (low := 0x18#8) rfl
theorem PatternForm.opFx1E (x : Reg) : PatternForm.Statement (.opFx1E x) := pattern_of_byte (t := 0xF#4) (low := 0x1E#8) rfl
theorem PatternForm.opFx29 (x : Reg) : PatternForm.Statement (.opFx29 x) := pattern_of_byte (t := 0xF#4) (low := 0x29#8) rfl
theorem PatternForm.opFx33 (x : Reg) : PatternForm.Statement (.opFx33 x) := pattern_of_byte (t := 0xF#4) (low := 0x33#8) rfl
theorem PatternForm.opFx55 (x : Reg) : PatternForm.Statement (.opFx55 x) := pattern_of_byte (t := 0xF#4) (low := 0x55#8) rfl
theorem PatternForm.opFx65 (x : Reg) : PatternForm.Statement (.opFx65 x) := pattern_of_byte (t := 0xF#4) (low := 0x65#8) rfl

end Sys2Proof.Laws
end

