-- ==== Sys2Proof/Tests/Slice0.lean ====
section
/-! SUPPORT. The model's own tests: ill-formed terms refused, words written out from the spec's encodings decoded, single
steps on the spec's worked examples and vectors (95_test_vectors.md, named S and T as there), and after them one witness
for every obligation that has hypotheses. -/

namespace Sys2Proof.Tests

open Sys2Proof.Machine

/-! ### Well-formedness: each check refuses its ill-formed term (rules R12, R97, R294) -/

theorem test_digit_above_15_refused :
    (Nibbles.mk 16 0 0 0).wellFormed = false ∧ (Nibbles.mk 6 16 0 0).wellFormed = false ∧
    (Nibbles.mk 6 0 16 0).wellFormed = false ∧ (Nibbles.mk 6 0 0 16).wellFormed = false ∧
    (Nibbles.mk 6 15 15 15).wellFormed = true := by decide

theorem test_unlisted_word_refused :
    (Nibbles.mk 0 0 0xE 0x1).wellFormed = false ∧ (Nibbles.mk 5 0xA 0xB 0x1).wellFormed = false ∧
    (Nibbles.mk 8 0xA 0xB 0x8).wellFormed = false ∧ (Nibbles.mk 9 0xA 0xB 0x1).wellFormed = false ∧
    (Nibbles.mk 0xE 0xA 0x9 0xF).wellFormed = false ∧ (Nibbles.mk 0xF 0xA 0x5 0x6).wellFormed = false ∧
    (Nibbles.mk 0xF 0xA 0x5 0x5).wellFormed = true := by decide

/-- S1: 3584 bytes fit and 3585 do not. -/
theorem test_oversized_image_refused (b : Byte) :
    imageWellFormed (List.replicate 3585 b) = false ∧ imageWellFormed (List.replicate 3584 b) = true := by
  simp only [imageWellFormed, List.length_replicate]
  decide

theorem test_one_byte_is_no_instruction : decodeBytes [0x12] = .error .truncated := by decide

/-! ### Decoding: words written out bit by bit from the patterns of rule R96 (T10) -/

theorem test_decode_family_0 :
    decodeWord 0b0000000011100000#16 = .ok .op00E0 ∧ decodeWord 0b0000000011101110#16 = .ok .op00EE ∧
    decodeWord 0b0000000011100001#16 = .error (.invalid 0x00E1) ∧ decodeWord 0x0000#16 = .error (.invalid 0) := by
  decide

theorem test_decode_jumps :
    decodeWord 0b0001001000110100#16 = .ok (.op1nnn 0x234) ∧ decodeWord 0b0010111111111111#16 = .ok (.op2nnn 0xFFF) ∧
    decodeWord 0b1011101010111100#16 = .ok (.opBnnn 0xABC) := by decide

theorem test_decode_skips :
    decodeWord 0b0011101001111011#16 = .ok (.op3xkk 0xA 0x7B) ∧
    decodeWord 0b0100101001111011#16 = .ok (.op4xkk 0xA 0x7B) ∧
    decodeWord 0b0101101010110000#16 = .ok (.op5xy0 0xA 0xB) ∧
    decodeWord 0b1001101010110000#16 = .ok (.op9xy0 0xA 0xB) ∧
    decodeWord 0b0101101010110001#16 = .error (.invalid 0x5AB1) ∧
    decodeWord 0b1001101010110001#16 = .error (.invalid 0x9AB1) := by decide

theorem test_decode_immediates :
    decodeWord 0b0110101001111011#16 = .ok (.op6xkk 0xA 0x7B) ∧
    decodeWord 0b0111101001111011#16 = .ok (.op7xkk 0xA 0x7B) ∧
    decodeWord 0b1010101010111100#16 = .ok (.opAnnn 0xABC) ∧
    decodeWord 0b1100101001111011#16 = .ok (.opCxkk 0xA 0x7B) := by decide

theorem test_decode_family_8 :
    decodeWord 0b1000101010110000#16 = .ok (.op8xy0 0xA 0xB) ∧ decodeWord 0b1000101010110001#16 = .ok (.op8xy1 0xA 0xB) ∧
    decodeWord 0b1000101010110010#16 = .ok (.op8xy2 0xA 0xB) ∧ decodeWord 0b1000101010110011#16 = .ok (.op8xy3 0xA 0xB) ∧
    decodeWord 0b1000101010110100#16 = .ok (.op8xy4 0xA 0xB) ∧ decodeWord 0b1000101010110101#16 = .ok (.op8xy5 0xA 0xB) ∧
    decodeWord 0b1000101010110110#16 = .ok (.op8xy6 0xA 0xB) ∧ decodeWord 0b1000101010110111#16 = .ok (.op8xy7 0xA 0xB) ∧
    decodeWord 0b1000101010111110#16 = .ok (.op8xyE 0xA 0xB) ∧
    decodeWord 0b1000101010111000#16 = .error (.invalid 0x8AB8) ∧
    decodeWord 0b1000101010111111#16 = .error (.invalid 0x8ABF) := by decide

theorem test_decode_draw :
    decodeWord 0b1101000000011111#16 = .ok (.opDxyn 0x0 0x1 0xF) ∧
    decodeWord 0b1101000000010000#16 = .ok (.opDxyn 0x0 0x1 0x0) := by decide

theorem test_decode_family_E :
    decodeWord 0b1110101010011110#16 = .ok (.opEx9E 0xA) ∧ decodeWord 0b1110101010100001#16 = .ok (.opExA1 0xA) ∧
    decodeWord 0b1110101010011111#16 = .error (.invalid 0xEA9F) ∧
    decodeWord 0b1110101010100000#16 = .error (.invalid 0xEAA0) := by decide

theorem test_decode_family_F :
    decodeWord 0b1111101000000111#16 = .ok (.opFx07 0xA) ∧ decodeWord 0b1111101000001010#16 = .ok (.opFx0A 0xA) ∧
    decodeWord 0b1111101000010101#16 = .ok (.opFx15 0xA) ∧ decodeWord 0b1111101000011000#16 = .ok (.opFx18 0xA) ∧
    decodeWord 0b1111101000011110#16 = .ok (.opFx1E 0xA) ∧ decodeWord 0b1111101000101001#16 = .ok (.opFx29 0xA) ∧
    decodeWord 0b1111101000110011#16 = .ok (.opFx33 0xA) ∧ decodeWord 0b1111101001010101#16 = .ok (.opFx55 0xA) ∧
    decodeWord 0b1111101001100101#16 = .ok (.opFx65 0xA) ∧
    decodeWord 0b1111101000001011#16 = .error (.invalid 0xFA0B) ∧
    decodeWord 0b1111101011111111#16 = .error (.invalid 0xFAFF) := by decide

/-- R60's byte order: 12 34 in memory is the word 1234. -/
theorem test_bytes_are_big_endian : decodeBytes [0x12, 0x34, 0x56] = .ok (.op1nnn 0x234, [0x56]) := by decide

theorem test_table_words :
    decodeTableWord 16 0x00E0 = some .op00E0 ∧ decodeTableWord 16 0xD123 = some (.opDxyn 1 2 3) ∧
    decodeTableWord 16 0x5123 = none := by decide

/-! ### Helpers for one step -/

/-- One step of `s` with `word` standing at `pc`, the outcome tested with `p`. -/
def runs (word : Nat) (s : State) (p : State → Bool) : Bool :=
  match step (s.withFetchWord 16 word) with
  | .next t => p t
  | .fault _ => false
  | .refused _ => false

/-- That step faults with `f`. -/
def faults (word : Nat) (s : State) (f : Fault) : Bool :=
  match step (s.withFetchWord 16 word) with
  | .next _ => false
  | .fault g => decide (g = f)
  | .refused _ => false

/-- Registers set, on the reset state. -/
def withRegs (rs : List (Reg × Byte)) : State := rs.foldl (fun s r => setReg s r.1 r.2) State.reset

/-- `V1` and `V2` as given, `VF = 77`: the start state of T3. -/
def pair (a b : Byte) : State := withRegs [(1, a), (2, b), (15, 0x77)]

/-- The result of a register-to-register word: `V1`, then VF, then `pc`. -/
def gives (word : Nat) (s : State) (v1 vF : Byte) : Bool :=
  runs word s fun t => getReg t 1#4 = v1 && getReg t 15#4 = vF && getReg t 2#4 = getReg s 2#4 && t.pc = 0x0202#16

/-- Memory bytes as a list of address and byte, on `s`. -/
def withBytes (bs : List (Nat × Byte)) (s : State) : State :=
  bs.foldl (fun s b => setMem s (memWrite s.mem b.1 b.2)) s

/-- Every listed byte reads as listed. -/
def reads (s : State) (bs : List (Nat × Byte)) : Bool := bs.all fun b => memRead s.mem b.1 = b.2

/-! ### Control transfer (T1) and faults of the fetch (T9) -/

theorem test_1nnn_sets_pc : runs 0x1ABC State.reset (fun t => t.pc = 0x0ABC#16) = true := by decide

theorem test_1nnn_odd_target : runs 0x1203 State.reset (fun t => t.pc = 0x0203#16) = true := by decide

/-- S6, T1 row 5. -/
theorem test_2nnn_pushes_its_own_address :
    runs 0x2ABC (setPc State.reset 0x0345#16)
      (fun t => t.stack[0] = 0x0345#16 && t.sp.val = 2 && t.pc = 0x0ABC#16) = true := by decide

/-- T1 rows 8 and 9. -/
theorem test_2nnn_fills_the_last_slot_then_overflows :
    runs 0x2300 { State.reset with sp := 62 }
      (fun t => t.stack[31] = 0x0200#16 && t.sp.val = 64 && t.pc = 0x0300#16) = true ∧
    faults 0x2300 { State.reset with sp := 64 } (.stackOverflow 0x2300) = true := by decide

/-- T1 row 6: the slot keeps its value. -/
theorem test_00EE_continues_after_the_call :
    runs 0x00EE { State.reset with sp := 2, pc := 0x0ABC, stack := State.reset.stack.set 0 0x0345 }
      (fun t => t.sp.val = 0 && t.pc = 0x0347#16 && t.stack[0] = 0x0345#16) = true := by decide

theorem test_00EE_underflow : faults 0x00EE State.reset (.stackUnderflow 0x00EE) = true := by decide

/-- T1 row 11: not masked to 12 bits. -/
theorem test_Bnnn_is_not_masked :
    runs 0xBFFF (withRegs [(0, 0xFF)]) (fun t => t.pc = 0x10FE#16) = true := by decide

/-- T1 row 12: V0 is added, not V2. -/
theorem test_Bnnn_adds_V0 : runs 0xB2FE (withRegs [(0, 0x02), (2, 0x55)]) (fun t => t.pc = 0x0300#16) = true := by decide

/-- T9 rows 1 to 3: no fetch, whatever the bytes are. -/
theorem test_fetch_out_of_range :
    (step (setPc State.reset 0x0FFF#16) matches .fault (.fetchOutOfRange 0x0FFF)) = true ∧
    (step (setPc State.reset 0x10FE#16) matches .fault (.fetchOutOfRange 0x10FE)) = true := by decide

/-- T9 row 4: the last legal fetch address. -/
theorem test_last_fetch_address :
    runs 0x6A01 (setPc State.reset 0x0FFE#16) (fun t => getReg t 10#4 = 0x01#8 && t.pc = 0x1000#16) = true := by decide

/-- S12. -/
theorem test_unlisted_word_faults : faults 0x5123 (pair 1 1) (.invalidInstruction 0x5123) = true := by decide

/-- From reset with nothing loaded the first step fetches 0000 at 0x200. -/
theorem test_reset_memory_runs_nothing :
    (step State.reset matches .fault (.invalidInstruction 0)) = true := by decide

/-! ### Skips (S3, T2) -/

theorem test_3xkk :
    runs 0x3A10 (withRegs [(10, 0x10)]) (fun t => t.pc = 0x0204#16) = true ∧
    runs 0x3A11 (withRegs [(10, 0x10)]) (fun t => t.pc = 0x0202#16) = true := by decide

/-- T2 rows 12 to 14: at the end of memory, and at an odd `pc`. -/
theorem test_3xkk_edges :
    runs 0x3000 (setPc State.reset 0x0FFE#16) (fun t => t.pc = 0x1002#16) = true ∧
    runs 0x3000 (setPc State.reset 0x0201#16) (fun t => t.pc = 0x0205#16) = true := by decide

theorem test_4xkk :
    runs 0x4A10 (withRegs [(10, 0x10)]) (fun t => t.pc = 0x0202#16) = true ∧
    runs 0x4A11 (withRegs [(10, 0x10)]) (fun t => t.pc = 0x0204#16) = true := by decide

theorem test_5xy0 :
    runs 0x5120 (pair 7 7) (fun t => t.pc = 0x0204#16) = true ∧
    runs 0x5120 (pair 7 8) (fun t => t.pc = 0x0202#16) = true := by decide

theorem test_9xy0 :
    runs 0x9120 (pair 7 8) (fun t => t.pc = 0x0204#16) = true ∧
    runs 0x9120 (pair 7 7) (fun t => t.pc = 0x0202#16) = true := by decide

/-! ### Registers (T3, T4, T6) -/

theorem test_6xkk : runs 0x6A42 (withRegs [(10, 0x99)]) (fun t => getReg t 10#4 = 0x42#8 && t.pc = 0x0202#16) = true := by
  decide

/-- T3 rows 3 and 5: no carry flag, and a plain add on VF. -/
theorem test_7xkk :
    runs 0x7A01 (withRegs [(10, 0xFF), (15, 0x55)]) (fun t => getReg t 10#4 = 0#8 && getReg t 15#4 = 0x55#8) = true ∧
    runs 0x7F01 (withRegs [(15, 0xFF)]) (fun t => getReg t 15#4 = 0#8) = true := by decide

theorem test_8xy0 : gives 0x8120 (pair 0x11 0x22) 0x22 0x77 = true := by decide

theorem test_8xy1 : gives 0x8121 (pair 0xF0 0x0F) 0xFF 0x77 = true := by decide

theorem test_8xy2 : gives 0x8122 (pair 0xF0 0x3C) 0x30 0x77 = true := by decide

theorem test_8xy3 : gives 0x8123 (pair 0xF0 0x3C) 0xCC 0x77 = true := by decide

theorem test_8xy4 :
    gives 0x8124 (pair 0xFF 0x01) 0x00 0x01 = true ∧ gives 0x8124 (pair 0xFE 0x01) 0xFF 0x00 = true := by decide

theorem test_8xy5 :
    gives 0x8125 (pair 0x01 0x02) 0xFF 0x00 = true ∧ gives 0x8125 (pair 0x05 0x05) 0x00 0x01 = true := by decide

theorem test_8xy6 :
    gives 0x8126 (pair 0x05 0xC3) 0x02 0x01 = true ∧ gives 0x8126 (pair 0x04 0xC3) 0x02 0x00 = true := by decide

theorem test_8xy7 :
    gives 0x8127 (pair 0x02 0x01) 0xFF 0x00 = true ∧ gives 0x8127 (pair 0x00 0xFF) 0xFF 0x01 = true := by decide

theorem test_8xyE :
    gives 0x812E (pair 0x81 0xC3) 0x02 0x01 = true ∧ gives 0x812E (pair 0x40 0xC3) 0x80 0x00 = true := by decide

/-- T4, `x = 15`: VF after each word, from `VF = 85`, `V1 = 03`. -/
theorem test_register_15_as_destination :
    [(0x8F10, 0x03), (0x8F11, 0x87), (0x8F12, 0x01), (0x8F13, 0x86), (0x8F14, 0x00), (0x8F15, 0x82), (0x8F16, 0x42),
     (0x8F17, 0x7E), (0x8F1E, 0x0A)].all
      (fun row => runs row.1 (withRegs [(15, 0x85), (1, 0x03)]) fun t => getReg t 15#4 = BitVec.ofNat 8 row.2) = true := by
  decide

/-- T4, `y = 15`: V1 and VF after each word, from `V1 = 03`, `VF = 85`. -/
theorem test_register_15_as_source :
    [(0x81F4, 0x88, 0x00), (0x81F5, 0x7E, 0x00), (0x81F7, 0x82, 0x01), (0x81F6, 0x01, 0x01), (0x81FE, 0x06, 0x00)].all
      (fun row => runs row.1 (withRegs [(15, 0x85), (1, 0x03)]) fun t =>
        getReg t 1#4 = BitVec.ofNat 8 row.2.1 && getReg t 15#4 = BitVec.ofNat 8 row.2.2) = true := by decide

/-- T6: the byte on the input, under the mask, and it is gone from the input. -/
theorem test_Cxkk :
    runs 0xC30F { State.reset with randIn := [0xA7, 0x11] } (fun t => getReg t 3#4 = 0x07#8 && t.randIn = [0x11#8]) = true ∧
    runs 0xCFFF { State.reset with randIn := [0x80] } (fun t => getReg t 15#4 = 0x80#8) = true := by decide

/-- With no byte on the input Cxkk still runs; under the mask 0 its result is known. -/
theorem test_Cxkk_free_byte :
    runs 0xC300 (withRegs [(3, 0x99)]) (fun t => t.draws = 1 && t.pc = 0x0202#16) = true := by decide

/-! ### Index register and memory transfer (T5) -/

theorem test_Annn : runs 0xAFFF State.reset (fun t => t.i.toNat = 0xFFF && t.pc = 0x0202#16) = true := by decide

/-- T5 rows 3 and 4: a plain sum, and the 12-bit wrap with VF unchanged. -/
theorem test_Fx1E :
    runs 0xF41E { withRegs [(4, 0x20)] with i := 0x2F0 } (fun t => t.i.toNat = 0x310) = true ∧
    runs 0xF41E { withRegs [(4, 0x01), (15, 0x55)] with i := 0xFFF }
      (fun t => t.i.toNat = 0 && getReg t 15#4 = 0x55#8) = true := by decide

/-- T5 rows 6 and 7: the index adder with `I_WIDTH` 16. -/
theorem test_index_adder_at_16_bits :
    indexAdd 16 0xFFF#16 0x01 = 0x1000#16 ∧ indexAdd 16 0xF80#16 0xFF = 0x107F#16 ∧
    indexAdd 16 0xFFFF#16 0x01 = 0x0000#16 := by decide

/-- T5 rows 8 and 9: no mask on the digit. -/
theorem test_Fx29 :
    runs 0xF229 (withRegs [(2, 0x0A)]) (fun t => t.i.toNat = 0x032) = true ∧
    runs 0xF229 (withRegs [(2, 0xFF)]) (fun t => t.i.toNat = 0x4FB) = true := by decide

/-- T5 rows 10 and 13. -/
theorem test_Fx33 :
    runs 0xF533 { withRegs [(5, 0x9C)] with i := 0x300 }
      (fun t => reads t [(0x300, 1), (0x301, 5), (0x302, 6), (0x303, 0)] && t.i.toNat = 0x300) = true ∧
    runs 0xF533 { withRegs [(5, 0x64)] with i := 0xFFD }
      (fun t => reads t [(0xFFC, 0), (0xFFD, 1), (0xFFE, 0), (0xFFF, 0)]) = true := by decide

/-- T5 rows 14 and 15. -/
theorem test_Fx33_faults :
    faults 0xF533 { withRegs [(5, 0x64)] with i := 0xFFE } (.addressOutOfRange 0xF533) = true ∧
    faults 0xF533 { withRegs [(5, 0x64)] with i := 0x04F } (.fontWrite 0xF533) = true := by decide

/-- T5 row 17: `I` and the registers stay. -/
theorem test_Fx55 :
    runs 0xF255 { withRegs [(0, 1), (1, 2), (2, 3), (3, 4)] with i := 0x400 }
      (fun t => reads t [(0x3FF, 0), (0x400, 1), (0x401, 2), (0x402, 3), (0x403, 0)] && t.i.toNat = 0x400) = true := by
  decide

/-- T5 rows 19 and 20. -/
theorem test_Fx55_faults :
    faults 0xF155 { withRegs [(0, 0xAB), (1, 0xCD)] with i := 0xFFF } (.addressOutOfRange 0xF155) = true ∧
    faults 0xF055 { withRegs [(0, 0xAB)] with i := 0x04F } (.fontWrite 0xF055) = true := by decide

/-- T5 rows 23 and 27: `I` stays, and the font, whose bytes are assumption 1's, may be read. -/
theorem test_Fx65 :
    runs 0xF265 (withBytes [(0x400, 1), (0x401, 5), (0x402, 6), (0x403, 9)] { withRegs [(3, 0x77)] with i := 0x400 })
      (fun t => getReg t 0#4 = 1#8 && getReg t 1#4 = 5#8 && getReg t 2#4 = 6#8 && getReg t 3#4 = 0x77#8 &&
        t.i.toNat = 0x400) = true ∧
    runs 0xFF65 State.reset (fun t => getReg t 4#4 = 0xF0#8 && getReg t 5#4 = 0x20#8 && getReg t 15#4 = 0xF0#8) = true := by
  decide

/-- T5 row 25. -/
theorem test_Fx65_faults :
    faults 0xF165 (withBytes [(0xFFF, 0x5A)] { withRegs [(0, 0x11), (1, 0x22)] with i := 0xFFF })
      (.addressOutOfRange 0xF165) = true := by decide

/-! ### Display (T7) -/

/-- T7's pixel map check: pixels (0,0), (63,0), (0,1), (9,0) and (63,31), each in its byte with its bit alone set. -/
theorem test_pixel_map :
    [(0, 0, 0xF00, 7), (63, 0, 0xF07, 0), (0, 1, 0xF08, 7), (9, 0, 0xF01, 6), (63, 31, 0xFFF, 0)].all
      (fun p => pixelLit (memWrite [] p.2.2.1 (1#8 <<< p.2.2.2)) p.1 p.2.1 = true &&
        pixelLit (memWrite [] p.2.2.1 (~~~(1#8 <<< p.2.2.2))) p.1 p.2.1 = false) = true := by decide

/-- T7 rows 13, 15, 16 and 17: a row wraps to column 0 of the same display row; one pixel goes off, one on, with the
collision; the coordinates are latched before VF is written. -/
theorem test_Dxyn_pixels :
    runs 0xD121 (withBytes [(0x300, 0xFF)] { withRegs [(1, 0x3C), (2, 0x1F)] with i := 0x300 })
      (fun t => reads t [(0xFFF, 0x0F), (0xFF8, 0xF0), (0xF00, 0), (0xF07, 0)] && getReg t 15#4 = 0#8) = true ∧
    runs 0xD121 (withBytes [(0x300, 0x18), (0xF00, 0xF0)] { State.reset with i := 0x300 })
      (fun t => reads t [(0xF00, 0xE8)] && getReg t 15#4 = 1#8 && t.pc = 0x0202#16) = true ∧
    runs 0xDF11 (withBytes [(0x300, 0x80)] { withRegs [(15, 9)] with i := 0x300 })
      (fun t => reads t [(0xF01, 0x40)] && getReg t 15#4 = 0#8) = true ∧
    runs 0xD1F1 (withBytes [(0x300, 0x80)] { withRegs [(15, 3)] with i := 0x300 })
      (fun t => reads t [(0xF18, 0x80)] && getReg t 15#4 = 0#8) = true := by decide

/-- T7 rows 21, 7 and 19: inside the display row 1 is read after row 0 was drawn; no rows at the end of memory, and rows
past it. -/
theorem test_Dxyn_order_and_edges :
    runs 0xD012 (withBytes [(0xF00, 0xFF), (0xF01, 0x0F)] { withRegs [(0, 8)] with i := 0xF00 })
      (fun t => reads t [(0xF00, 0xFF), (0xF01, 0xF0), (0xF09, 0xF0), (0xF08, 0)] && getReg t 15#4 = 1#8) = true ∧
    runs 0xD120 { withRegs [(15, 0x55)] with i := 0xFFF } (fun t => getReg t 15#4 = 0#8) = true ∧
    faults 0xD12F { State.reset with i := 0xFF2 } (.addressOutOfRange 0xD12F) = true := by decide

theorem test_00E0_completes : runs 0x00E0 State.reset (fun t => t.pc = 0x0202#16) = true := by decide

/-- T7 row 23, through the law of a block write: the display is zero, the byte before it is not touched. -/
theorem test_00E0 (s : State) (hw : memWf s.mem = true) (hb : memRead s.mem 0xEFF = 0xAA#8) :
    ∃ t, exec .op00E0 s = .next t ∧ memRead t.mem 0xF00 = 0 ∧ memRead t.mem 0xFFF = 0 ∧ memRead t.mem 0xEFF = 0xAA#8 ∧
      getReg t 15#4 = getReg s 15#4 := by
  refine ⟨_, rfl, ?_, ?_, ?_, by simp⟩ <;> simp only [advance_mem, setMem_mem]
  · have := memRead_memWriteBytes_inside hw (a := 0xF00) (k := 0) (bs := List.replicate 256 0)
      (by rw [List.length_replicate]; decide) (by decide)
    simpa only [List.getElem_replicate] using this
  · have := memRead_memWriteBytes_inside hw (a := 0xF00) (k := 255) (bs := List.replicate 256 0)
      (by rw [List.length_replicate]; decide) (by decide)
    simpa only [List.getElem_replicate] using this
  · rw [memRead_memWriteBytes_outside (.inl (by decide))]
    exact hb

/-! ### Keypad and timers (S9, T8) -/

theorem test_Ex9E :
    runs 0xE19E { withRegs [(1, 3)] with keys := 0x0008 } (fun t => t.pc = 0x0204#16) = true ∧
    runs 0xE19E { withRegs [(1, 4)] with keys := 0x0008 } (fun t => t.pc = 0x0202#16) = true := by decide

theorem test_ExA1 :
    runs 0xE1A1 { withRegs [(1, 3)] with keys := 0x0008 } (fun t => t.pc = 0x0202#16) = true ∧
    runs 0xE1A1 { withRegs [(1, 4)] with keys := 0x0008 } (fun t => t.pc = 0x0204#16) = true := by decide

/-- T8 rows 6 and 7: the whole byte is the key index. -/
theorem test_key_index_faults :
    faults 0xE19E { withRegs [(1, 0x10)] with keys := 0xFFFF } (.keyIndexOutOfRange 0xE19E) = true ∧
    faults 0xE1A1 (withRegs [(1, 0xFF)]) (.keyIndexOutOfRange 0xE1A1) = true := by decide

theorem test_Fx07 : runs 0xF307 { State.reset with dt := 0x2A } (fun t => getReg t 3#4 = 0x2A#8 && t.dt = 0x2A#8) = true := by
  decide

theorem test_Fx15 : runs 0xF315 { withRegs [(3, 0x3C)] with dt := 7 } (fun t => t.dt = 0x3C#8 && t.st = 0#8) = true := by
  decide

theorem test_Fx18 : runs 0xF318 (withRegs [(3, 2)]) (fun t => t.st = 2#8 && t.dt = 0#8 && shouldBeep t) = true := by decide

/-- T8 rows 15 and 17: the lowest held key is latched; with a key still down nothing changes. -/
theorem test_Fx0A_latches_and_waits :
    runs 0xF50A { State.reset with keys := 0x0048 }
      (fun t => t.kw = { latched := true, key := 3 } && t.pc = 0x0200#16) = true ∧
    runs 0xF50A { withRegs [(5, 0x99)] with keys := 0x0001, kw := { latched := true, key := 6 } }
      (fun t => t.kw = { latched := true, key := 6 } && t.pc = 0x0200#16 && getReg t 5#4 = 0x99#8) = true := by decide

/-- T8 rows 14 and 18. -/
theorem test_Fx0A_waits_and_retires :
    runs 0xF50A (withRegs [(5, 0x99)]) (fun t => t.pc = 0x0200#16 && getReg t 5#4 = 0x99#8 && !t.kw.latched) = true ∧
    runs 0xF50A { withRegs [(5, 0x99)] with kw := { latched := true, key := 6 } }
      (fun t => t.pc = 0x0202#16 && getReg t 5#4 = 6#8 && !t.kw.latched) = true := by decide

/-! ### The host's operations (T8, T11) -/

/-- T8 row 23. -/
theorem test_tick : (tickTimers { State.reset with st := 0xFF }).dt = 0 ∧
    (tickTimers { State.reset with st := 0xFF }).st = 0xFE#8 := by decide

/-- T8 rows 24 and 25. -/
theorem test_keys :
    (transactAll [.keyDown 0, .keyDown 15, .keyDown 15] State.reset).keys = 0x8001#16 ∧
    (transactAll [.keyUp 0, .keyUp 3] { State.reset with keys := 0x8001 }).keys = 0x8000#16 := by decide

/-- T11 row 3: the tail of the first load stays. -/
theorem test_load_twice :
    reads (transactAll [.load [1, 2, 3, 4], .load [9]] State.reset)
      [(0x1FF, 0), (0x200, 9), (0x201, 2), (0x202, 3), (0x203, 4), (0x204, 0)] = true := by decide

/-- T11 row 1, with the font bytes of assumption 1. -/
theorem test_reset_font :
    reads State.reset [(0x000, 0xF0), (0x001, 0x90), (0x004, 0xF0), (0x04B, 0xF0), (0x04F, 0x80), (0x050, 0)] = true := by
  decide

/-- T9 row 18: the same status again after a tick and key events. -/
theorem test_fault_repeats :
    (transact (.step 0x55) (transactAll [.step 0, .tick, .keyDown 3, .keyUp 3] State.reset)).2 = .status 1 0 := by decide

/-! ### Witnesses: for every obligation with hypotheses, a concrete input that meets them -/

/-- Whether an outcome is a next state. -/
def completes : Host.Outcome State Fault Refusal → Bool
  | .next _ => true
  | .fault _ => false
  | .refused _ => false

/-- Whether an outcome is the fault `f`. -/
def stopsWith (f : Fault) : Host.Outcome State Fault Refusal → Bool
  | .next _ => false
  | .fault g => decide (g = f)
  | .refused _ => false

theorem exists_next_of_completes {o : Host.Outcome State Fault Refusal} (h : completes o = true) : ∃ t, o = .next t := by
  cases o with
  | next t => exact ⟨t, rfl⟩
  | fault _ => cases h
  | refused _ => cases h

/-- The instruction `i` at `pc` of `s`. -/
def placed (i : Instr) (s : State) : State := s.withFetchWord 16 (encode i).toNat

/-- A state whose memory, stack, timers, keys and latch all hold something. -/
def busy : State :=
  { withBytes [(0x300, 0x18), (0xF00, 0xF0)] (withRegs [(0, 1), (1, 2), (2, 3), (15, 0x85)]) with
    i := 0x300, sp := 2, stack := State.reset.stack.set 0 0x0345, dt := 7, st := 5, keys := 0x0048,
    kw := { latched := false, key := 6 }, randIn := [0xA7] }

theorem witness_EncodeUndoesDecode : decodeWord 0x8AB6 = .ok (.op8xy6 0xA 0xB) := by decide

theorem witness_EveryWordIsOneInstructionOrInvalid :
    ∃ r r' : Row, r ∈ opcodeMap ∧ r' ∈ opcodeMap ∧ r.matchesWord 0x00E0 = true ∧ r'.matchesWord 0x00E0 = true :=
  ⟨Instr.row .op00E0, Instr.row .op00E0, by decide, by decide, by decide, by decide⟩

/-- Both sides of the equivalence at its edges: a listed and an unlisted word of each family with unlisted ones. -/
theorem witness_RejectedWordsAreTheListedOnes :
    [0x00DF, 0x00E1, 0x00ED, 0x00EF, 0x5AB1, 0x8AB8, 0x8ABD, 0x8ABF, 0x9ABF, 0xEA9D, 0xEAA2, 0xFA06, 0xFA66].all
      (fun w => decide (decodeWord (BitVec.ofNat 16 w) = .error (.invalid (BitVec.ofNat 16 w)))) = true ∧
    [0x00E0, 0x00EE, 0x1000, 0x5AB0, 0x8AB7, 0x8ABE, 0x9AB0, 0xEA9E, 0xEAA1, 0xFA07, 0xFA65].all
      (fun w => decide (decodeWord (BitVec.ofNat 16 w) ≠ .error (.invalid (BitVec.ofNat 16 w)))) = true := by decide

/-- Both clauses at the last legal `pc`. -/
theorem witness_StepRunsTheDecodedInstruction :
    ((placed (.op6xkk 1 2) (setPc State.reset 0xFFE)).pc.toNat ≤ 0xFFE ∧
      decodeWord (memReadWord (placed (.op6xkk 1 2) (setPc State.reset 0xFFE)).mem 0xFFE) = .ok (.op6xkk 1 2)) ∧
    (setPc State.reset 0xFFE).pc.toNat ≤ 0xFFE ∧ decodeWord (memReadWord State.reset.mem 0xFFE) = .error (.invalid 0) := by
  decide

theorem witness_FetchPastMemoryFaults : (setPc State.reset 0xFFF).pc.toNat > 0xFFE := by decide

theorem witness_PlacedWordIsTheNextOneRun :
    memWf State.reset.mem = true ∧ memWf (setPc State.reset 0xFFF).mem = true ∧ memWf busy.mem = true := by decide

/-- Each disjunct at its boundary. -/
theorem witness_ExecutionFaultsAreExactlyTheListedOnes :
    SpEven busy ∧
    stopsWith (.stackOverflow 0x2300) (exec (.op2nnn 0x300) { busy with sp := 64 }) = true ∧
    stopsWith (.stackUnderflow 0x00EE) (exec .op00EE { busy with sp := 0 }) = true ∧
    stopsWith (.addressOutOfRange 0xD122) (exec (.opDxyn 1 2 2) { busy with i := 0xFFF }) = true ∧
    stopsWith (.addressOutOfRange 0xF165) (exec (.opFx65 1) { busy with i := 0xFFF }) = true ∧
    stopsWith (.addressOutOfRange 0xF133) (exec (.opFx33 1) { busy with i := 0xFFE }) = true ∧
    stopsWith (.fontWrite 0xF133) (exec (.opFx33 1) { busy with i := 0x04F }) = true ∧
    stopsWith (.addressOutOfRange 0xF155) (exec (.opFx55 1) { busy with i := 0xFFF }) = true ∧
    stopsWith (.fontWrite 0xF155) (exec (.opFx55 1) { busy with i := 0x04F }) = true ∧
    stopsWith (.keyIndexOutOfRange 0xE19E) (exec (.opEx9E 1) (setReg busy 1 16)) = true ∧
    stopsWith (.keyIndexOutOfRange 0xE1A1) (exec (.opExA1 1) (setReg busy 1 16)) = true := by decide

theorem witness_FaultsChangeNothingAndRepeat :
    transact (.step 7) State.reset = (State.reset, .status 1 0) ∧
    (∀ o ∈ [HostOp.tick, .keyDown 3, .keyUp 3, .display, .beep, .step 9],
      o = .tick ∨ (∃ k, o = .keyDown k) ∨ (∃ k, o = .keyUp k) ∨ o = .display ∨ o = .beep ∨ ∃ q, o = .step q) := by
  refine ⟨by decide, ?_⟩
  intro o h
  simp only [List.mem_cons, List.not_mem_nil, or_false] at h
  rcases h with rfl | rfl | rfl | rfl | rfl | rfl <;> simp

/-- Each status from a step. -/
theorem witness_StepReportsItsStatus :
    completes (step (placed (.op6xkk 1 2) { State.reset with randIn := [9] })) = true ∧
    stopsWith (.invalidInstruction 0) (step { State.reset with randIn := [9] }) = true ∧
    stopsWith (.stackOverflow 0x2300) (step (placed (.op2nnn 0x300) { State.reset with randIn := [9], sp := 64 })) = true ∧
    stopsWith (.stackUnderflow 0x00EE) (step (placed .op00EE { State.reset with randIn := [9] })) = true ∧
    stopsWith (.fetchOutOfRange 0xFFF) (step { State.reset with randIn := [9], pc := 0xFFF }) = true ∧
    stopsWith (.addressOutOfRange 0xF133) (step (placed (.opFx33 1) { State.reset with randIn := [9], i := 0xFFE })) = true ∧
    stopsWith (.fontWrite 0xF133) (step (placed (.opFx33 1) { State.reset with randIn := [9] })) = true ∧
    stopsWith (.keyIndexOutOfRange 0xE19E)
      (step (placed (.opEx9E 1) { withRegs [(1, 16)] with randIn := [9] })) = true := by decide

theorem witness_CallPushesItsAddressAndJumps :
    (∃ k : Fin Config.stackDepth, State.reset.sp.val = 2 * k.val) ∧
    (∃ k : Fin Config.stackDepth, ({ State.reset with sp := 62 } : State).sp.val = 2 * k.val) ∧
    ({ State.reset with sp := 64 } : State).sp.val = 64 := by decide

theorem witness_ReturnContinuesAfterTheCall :
    (∃ k : Fin Config.stackDepth, ({ State.reset with sp := 2 } : State).sp.val = 2 * k.val + 2) ∧
    (∃ k : Fin Config.stackDepth, ({ State.reset with sp := 64 } : State).sp.val = 2 * k.val + 2) ∧
    State.reset.sp.val = 0 := by decide

theorem witness_CallsNestAndReturnsUndoThem :
    (∃ t, SpEven State.reset ∧ exec (.op2nnn 0x300) State.reset = .next t ∧ t.sp = t.sp ∧ t.stack = t.stack) ∧
    State.reset.sp.val = 0 ∧ (List.replicate 32 ((0x200, 0x300) : Word16 × Addr12)).length ≤ Config.stackDepth := by
  refine ⟨?_, rfl, by rw [List.length_replicate]⟩
  obtain ⟨t, h⟩ := exists_next_of_completes (show completes (exec (.op2nnn 0x300) State.reset) = true by decide)
  exact ⟨t, rfl, h, rfl, rfl⟩

theorem witness_SelfJumpIdlesForEver :
    (placed (.op1nnn 0xFFE) (setPc State.reset 0xFFE)).pc.toNat ≤ 0xFFE ∧
    (placed (.op1nnn 0xFFE) (setPc State.reset 0xFFE)).pc.toNat = (0xFFE#12).toNat ∧
    decodeWord (memReadWord (placed (.op1nnn 0xFFE) (setPc State.reset 0xFFE)).mem 0xFFE) = .ok (.op1nnn 0xFFE) := by decide

/-- An instruction of every class completes: PcFollowsTheClassOfTheInstruction, RegisterFifteenAsOperand,
RegisterAccessTable, InstructionsWriteOnlyTheirState and IndexIsSeenOnlyByItsInstructions have such a premise. -/
theorem witness_every_class_completes :
    [.op1nnn 0xFFF, .op2nnn 0xFFF, .opBnnn 0xFFF, .op00EE, .op3xkk 1 2, .op4xkk 1 2, .op5xy0 1 2, .op9xy0 1 2, .opEx9E 1,
      .opExA1 1, .opFx0A 1, .op6xkk 1 2, .opAnnn 0, .opFx1E 1, .opFx29 1, .opFx33 1, .opFx55 15, .opFx65 15, .opDxyn 1 2 1,
      .opFx15 1, .opFx18 1, .opCxkk 1 0].all (fun i => completes (exec i busy)) = true := by decide

theorem witness_KeySkipsTestTheHeldBit :
    (getReg (withRegs [(1, 15)]) 1).toNat ≤ 15 ∧ (getReg (withRegs [(1, 16)]) 1).toNat > 15 := by decide

theorem witness_RegisterFifteenAsOperand :
    ((1 : Reg) ≠ VF) ∧
    [Instr.op8xy0 VF 1, .op8xy1 VF 1, .op8xy2 VF 1, .op8xy3 VF 1, .op8xy4 VF 1, .op8xy5 VF 1, .op8xy6 VF 1, .op8xy7 VF 1,
      .op8xyE VF 1].all (fun i => completes (exec i busy)) = true ∧
    [Instr.op8xy0 1 VF, .op8xy1 1 VF, .op8xy2 1 VF, .op8xy3 1 VF, .op8xy4 1 VF, .op8xy5 1 VF, .op8xy6 1 VF, .op8xy7 1 VF,
      .op8xyE 1 VF].all (fun i => completes (exec i busy)) = true ∧
    [Instr.op8xy4 VF VF, .op8xy5 VF VF, .op8xy7 VF VF, .op8xy6 VF VF, .op8xyE VF VF].all
      (fun i => completes (exec i busy)) = true := by decide

/-- Premises on registers only: a destination that is not VF. -/
theorem witness_flag_clauses : (0xE#4 : Reg) ≠ VF := by decide

theorem witness_RandomByteUnderMask : busy.randIn = [0xA7] ∧ State.reset.randIn = [] := by decide

theorem witness_OnlyCxkkSeesTheRandomByte : ∀ x kk, Instr.op00E0 ≠ .opCxkk x kk := by nofun

theorem witness_RegisterAccessTable :
    (3 : Reg) ∉ regsRead (.op8xy4 1 2) ∧ completes (exec (.op8xy4 1 2) busy) = true ∧
    (3 : Reg) ∉ regsRead (.opFx33 1) ∧ stopsWith (.addressOutOfRange 0xF133) (exec (.opFx33 1) { busy with i := 0xFFE }) = true ∧
    (2 : Reg) ∉ regsRead (.opFx55 1) ∧
    (match exec (.opFx0A 1) busy with | .next t => decide (t.pc = busy.pc) | _ => false) = true := by decide

theorem witness_BcdStoresTheThreeDigits :
    memWf busy.mem = true ∧ 0x050 ≤ (0x050#12).toNat ∧ (0xFFD#12).toNat + 2 ≤ 0xFFF ∧ (0xFFE#12).toNat + 2 > 0xFFF ∧
    (0x04F#12).toNat < 0x050 := by decide

theorem witness_RegisterBlock :
    memWf busy.mem = true ∧ (0xFF0#12).toNat + (0xF#4).toNat ≤ 0xFFF ∧ (0xFF1#12).toNat + (0xF#4).toNat > 0xFFF ∧
    (0xFFF#12).toNat + (0x0#4).toNat ≤ 0xFFF ∧ (0x04F#12).toNat < 0x050 := by decide

theorem witness_StoredBlockLoadsBack :
    ∃ t, memWf busy.mem = true ∧ exec (.opFx55 2) busy = .next t ∧ t.mem = t.mem ∧ busy.i = busy.i := by
  obtain ⟨t, h⟩ := exists_next_of_completes (show completes (exec (.opFx55 2) busy) = true by decide)
  exact ⟨t, by decide, h, rfl, rfl⟩

/-- Each clause at a boundary: Fx33 at 0xFFD, Fx55 at 0x050 and at 0xFF0, the display cleared and drawn on, the largest
program. -/
theorem witness_StoredCodeIsFetchedNext (b : Byte) :
    memWf busy.mem = true ∧ completes (exec (.opFx33 1) { busy with i := 0xFFD }) = true ∧
    completes (exec (.opFx55 15) { busy with i := 0x050 }) = true ∧
    completes (exec (.opFx55 15) { busy with i := 0xFF0 }) = true ∧ completes (exec .op00E0 busy) = true ∧
    completes (exec (.opDxyn 1 2 15) { busy with i := 0xFF1 }) = true ∧
    (List.replicate 3584 b).length + 0x200 ≤ 4096 := by
  refine ⟨by decide, by decide, by decide, by decide, rfl, rfl, ?_⟩
  simp only [List.length_replicate]
  decide

/-- The premises inside `FetchSees`, as in the spec's program P7: V0 = 12 and V1 = 0A, stored at 0x208, spell the jump to
20A at that `pc`; and the zeros that 00E0 leaves at the last fetch address spell no instruction. -/
theorem witness_FetchSees :
    (0x208#16).toNat ≤ 0xFFE ∧ decodeWord (wordOfBytes 0x12 0x0A) = .ok (.op1nnn 0x20A) ∧
    (0xFFE#16).toNat ≤ 0xFFE ∧ decodeWord (wordOfBytes 0 0) = .error (.invalid 0) := by decide

/-- A next state with another `I`, and an instruction outside the seven. -/
theorem witness_IndexIsSeenOnlyByItsInstructions :
    (match exec (.opAnnn 0x123) busy with | .next t => decide (t.i ≠ busy.i) | _ => false) = true ∧
    (∀ nnn, Instr.op8xy4 1 2 ≠ .opAnnn nnn) ∧ (∀ x, Instr.op8xy4 1 2 ≠ .opFx1E x) ∧ (∀ x, Instr.op8xy4 1 2 ≠ .opFx29 x) ∧
    (∀ x, Instr.op8xy4 1 2 ≠ .opFx33 x) ∧ (∀ x, Instr.op8xy4 1 2 ≠ .opFx55 x) ∧ (∀ x, Instr.op8xy4 1 2 ≠ .opFx65 x) ∧
    (∀ x y n, Instr.op8xy4 1 2 ≠ .opDxyn x y n) :=
  ⟨by decide, nofun, nofun, nofun, nofun, nofun, nofun, nofun⟩

theorem witness_ClearZeroesTheDisplay : memWf busy.mem = true := by decide

theorem witness_DrawTouchesOnlyDisplayAndVF :
    (0x0#4).toNat = 0 ∧ (0xFF1#12).toNat + (0xF#4).toNat - 1 ≤ 0xFFF ∧
    ((0xF#4).toNat > 0 ∧ (0xFF2#12).toNat + (0xF#4).toNat - 1 > 0xFFF) := by decide

/-- A sprite inside the display, the third row of it. -/
theorem witness_EachSpriteRowIsReadAfterTheRowsBefore :
    ∃ t u, memWf busy.mem = true ∧ (3#4).toNat = (2#4).toNat + 1 ∧
      exec (.opDxyn 1 2 2) { busy with i := 0xF00 } = .next t ∧ exec (.opDxyn 1 2 3) { busy with i := 0xF00 } = .next u := by
  obtain ⟨t, h⟩ := exists_next_of_completes (show completes (exec (.opDxyn 1 2 2) { busy with i := 0xF00 }) = true by decide)
  obtain ⟨u, h'⟩ := exists_next_of_completes (show completes (exec (.opDxyn 1 2 3) { busy with i := 0xF00 }) = true by decide)
  exact ⟨t, u, by decide, rfl, h, h'⟩

/-- The last source address below the display, at 15 rows. -/
theorem witness_DrawXorsTheSpriteOntoTheDisplay :
    memWf busy.mem = true ∧ (0xEF1#12).toNat + (0xF#4).toNat ≤ 0xF00 := by decide

/-- Two draws of one pixel row, the second on the first one's memory; and a blank display. -/
theorem witness_DrawingTwiceRestoresTheDisplay :
    ∃ s t w : State, memWf s.mem = true ∧ s.i.toNat + (1#4).toNat ≤ 0xF00 ∧ exec (.opDxyn 1 2 1) s = .next t ∧
      exec (.opDxyn 1 2 1) { s with mem := t.mem } = .next w ∧ ∀ a, 0xF00 ≤ a → a ≤ 0xFFF → memRead s.mem a = 0 := by
  obtain ⟨t, h⟩ := exists_next_of_completes (show completes (exec (.opDxyn 1 2 1) State.reset) = true by decide)
  have h' : exec (.opDxyn 1 2 1) { State.reset with mem := t.mem } =
      .next (advance (setReg (setMem { State.reset with mem := t.mem } (drawSprite t.mem 0 0 0 1).mem) VF
        (flagByte (drawSprite t.mem 0 0 0 1).hit))) := rfl
  exact ⟨State.reset, t, _, by decide, by decide, h, h', fun a ha _ => if_neg (by simp only [Config.fontEnd]; omega)⟩

/-- The four rows of the table. -/
theorem witness_KeyWaitFollowsItsTable :
    (State.reset.kw.latched = false ∧ State.reset.keys = 0) ∧ (busy.kw.latched = false ∧ busy.keys ≠ 0) ∧
    ∃ s : State, s.kw.latched = true ∧ s.keys = 0x8000 ∧
      ({ s with keys := 0 } : State).kw.latched = true ∧ ({ s with keys := 0 } : State).keys = 0 :=
  ⟨by decide, by decide, { busy with keys := 0x8000, kw := { latched := true, key := 15 } }, by decide⟩

theorem witness_LatchIsSeenOnlyByFx0A :
    (∀ x, Instr.opEx9E 1 ≠ .opFx0A x) ∧ HostOp.tick ≠ .reset ∧ ∀ r, HostOp.tick ≠ .step r :=
  ⟨nofun, nofun, nofun⟩

/-- Each premise about a change is met: memory, `I`, the stack, both timers, the latch and the random input. -/
theorem witness_InstructionsWriteOnlyTheirState :
    (match exec (.opFx33 1) busy with | .next t => decide (memRead t.mem 0x302 ≠ memRead busy.mem 0x302) | _ => false) = true ∧
    (match exec .op00EE busy with | .next t => decide (t.sp ≠ busy.sp) | _ => false) = true ∧
    (match exec (.opFx15 1) busy with | .next t => decide (t.dt ≠ busy.dt) | _ => false) = true ∧
    (match exec (.opFx18 1) busy with | .next t => decide (t.st ≠ busy.st) | _ => false) = true ∧
    (match exec (.opFx0A 1) busy with | .next t => decide (t.kw ≠ busy.kw) | _ => false) = true ∧
    (match exec (.opCxkk 1 0) busy with | .next t => decide (t.randIn ≠ busy.randIn) | _ => false) = true := by decide

theorem witness_HostOperationsWriteOnlyTheirState :
    (HostOp.tick ≠ .reset ∧ ∀ r, HostOp.tick ≠ .step r) ∧
    memRead (transact (.load [7]) busy).1.mem 0x200 ≠ memRead busy.mem 0x200 ∧
    (transact .tick busy).1.dt ≠ busy.dt ∧ (transact .tick busy).1.st ≠ busy.st ∧
    (transact (.keyDown 0) busy).1.keys ≠ busy.keys :=
  ⟨⟨nofun, nofun⟩, by decide⟩

/-- The invariant holds of a state that a run reaches, and its step completes. -/
theorem witness_StepKeepsTheInvariant :
    ∃ t, Inv busy ∧ Inv (placed (.op8xy4 1 2) busy) ∧ step (placed (.op8xy4 1 2) busy) = .next t := by
  obtain ⟨t, h⟩ := exists_next_of_completes (show completes (step (placed (.op8xy4 1 2) busy)) = true by decide)
  exact ⟨t, by decide, by decide, h⟩

theorem witness_ReachableStatesMeetTheInvariant :
    Reachable (transact (.load [0x12, 0x00]) (resetMachine busy)).1 := .op _ (.reset _)

theorem witness_EqualBytesAreEqualMemories :
    memWf (memWrite (memWrite [] 0x300 7) 0x301 8) = true ∧
    memWrite (memWrite [] 0x300 7) 0x301 8 = memWrite (memWrite [] 0x301 8) 0x300 7 ∧
    memWrite (memWrite [] 0x300 7) 0x300 0 = [] := by decide

/-- The largest program that fits and the smallest that does not. -/
theorem witness_LoadCopiesOrRefuses (b : Byte) :
    memWf busy.mem = true ∧ (List.replicate 3584 b).length + 0x200 ≤ 4096 ∧
    (List.replicate 3585 b).length + 0x200 > 4096 := by
  simp only [List.length_replicate]
  decide

/-- The last pixel. -/
theorem witness_DisplayPixelsAreLaidOutByRows : 63 < 64 ∧ 31 < 32 := by decide

end Sys2Proof.Tests
end

/-! ## What each operation does to `pc`, memory and the stack, and the invariant (rules R25, R26, R47, R48, R125) -/

namespace Sys2Proof.Machine

/-! ### What a completed instruction leaves, for the meanings that branch or are guarded -/

theorem toNat_of_keyIndex_eq_some {b : Byte} {k : Key} (h : keyIndex b = some k) : k.toNat = b.toNat := by
  by_cases hb : b.toNat ≤ 15
  · obtain ⟨k', hk', hn⟩ := keyIndex_of_le hb
    rwa [Option.some.inj (h.symm.trans hk')]
  · simp [keyIndex_of_gt (Nat.lt_of_not_le hb)] at h

theorem fontEnd_le_of_storeFault_eq_none {op : Word16} {count : Nat} {s : State} (h : storeFault op count s = none) :
    Config.fontEnd ≤ effAddr s 0 := by
  rw [storeFault_eq] at h
  split at h
  · split at h
    · cases h
    · exact Nat.le_of_not_lt ‹_›
  · cases h

theorem exec_op00E0_eq_next {s t : State} (h : exec .op00E0 s = .next t) :
    ∃ bs, t = advance (setMem s (memWriteBytes s.mem Config.displayBase bs)) :=
  ⟨_, (Host.Outcome.next.inj h).symm⟩

theorem exec_op00EE_eq_next {s t : State} (h : exec .op00EE s = .next t) :
    2 ≤ s.sp.val ∧ ∃ k : Fin Config.stackDepth, k.val = (s.sp.val - 2) / 2 ∧ t.pc = s.stack[k.val] + 2 ∧
      t.mem = s.mem ∧ t.stack = s.stack ∧ t.sp.val = s.sp.val - 2 := by
  change exec00EE s = _ at h
  unfold exec00EE at h
  obtain ⟨hsp, hk, _, hpop⟩ | ⟨-, hpop⟩ := popReturn_cases s
  · simp only [hpop] at h
    cases h
    exact ⟨hsp, ⟨_, hk⟩, rfl, rfl, rfl, rfl, rfl⟩
  · simp only [hpop] at h
    cases h

theorem exec_op2nnn_eq_next {nnn : Addr12} {s t : State} (h : exec (.op2nnn nnn) s = .next t) :
    ∃ k : Fin Config.stackDepth, k.val = s.sp.val / 2 ∧ t.pc = addrTarget nnn ∧ t.mem = s.mem ∧
      t.stack = s.stack.set k.val s.pc ∧ t.sp.val = s.sp.val + 2 := by
  change exec2nnn nnn s = _ at h
  unfold exec2nnn at h
  obtain ⟨hk, _, hpush⟩ | ⟨-, hpush⟩ := pushReturn_cases s s.pc
  · simp only [hpush] at h
    cases h
    exact ⟨⟨_, hk⟩, rfl, rfl, rfl, rfl, rfl⟩
  · simp only [hpush] at h
    cases h

theorem exec_opEx9E_eq_next {x : Reg} {s t : State} (h : exec (.opEx9E x) s = .next t) :
    t = skipIf (s.keys.getLsbD (getReg s x).toNat) s := by
  change execEx9E x s = _ at h
  unfold execEx9E at h
  split at h
  · cases h
    rw [keyHeld, toNat_of_keyIndex_eq_some ‹_›]
  · cases h

theorem exec_opExA1_eq_next {x : Reg} {s t : State} (h : exec (.opExA1 x) s = .next t) :
    t = skipIf (!s.keys.getLsbD (getReg s x).toNat) s := by
  change execExA1 x s = _ at h
  unfold execExA1 at h
  split at h
  · cases h
    rw [keyHeld, toNat_of_keyIndex_eq_some ‹_›]
  · cases h

/-- Fx0A retires, or it waits and at most the latch changes. -/
theorem exec_opFx0A_eq_next {x : Reg} {s t : State} (h : exec (.opFx0A x) s = .next t) :
    ((s.kw.latched = true ∧ s.keys = 0) ∧ ∃ b kw, t = advance (setWait (setReg s x b) kw)) ∨
    (¬ (s.kw.latched = true ∧ s.keys = 0) ∧ ∃ kw, t = setWait s kw) := by
  change execFx0A x s = _ at h
  unfold execFx0A at h
  split at h
  · split at h <;> cases h
    · exact .inl ⟨⟨‹_›, ‹_›⟩, _, _, rfl⟩
    · exact .inr ⟨fun hw => ‹¬ s.keys = 0› hw.2, s.kw, rfl⟩
  · split at h <;> cases h
    · exact .inr ⟨fun hw => ‹¬ s.kw.latched = true› hw.1, s.kw, rfl⟩
    · exact .inr ⟨fun hw => ‹¬ s.kw.latched = true› hw.1, _, rfl⟩

theorem exec_opDxyn_eq_next {x y : Reg} {n : Nibble} {s t : State} (h : exec (.opDxyn x y n) s = .next t) :
    ∃ vx vy flag, t = advance (setReg (setMem s (drawSprite s.mem (effAddr s 0) vx vy n.toNat).mem) VF flag) :=
  ⟨_, _, _, (guarded_eq_next.mp h).2.symm⟩

theorem exec_opFx33_eq_next {x : Reg} {s t : State} (h : exec (.opFx33 x) s = .next t) :
    Config.fontEnd ≤ effAddr s 0 ∧
      t = advance (setMem s (memWriteBytes s.mem (effAddr s 0) (bcdDigits (getReg s x)))) := by
  obtain ⟨hf, rfl⟩ := guarded_eq_next.mp h
  exact ⟨fontEnd_le_of_storeFault_eq_none hf, rfl⟩

theorem exec_opFx55_eq_next {x : Reg} {s t : State} (h : exec (.opFx55 x) s = .next t) :
    Config.fontEnd ≤ effAddr s 0 ∧
      t = advance (setMem s (memWriteBytes s.mem (effAddr s 0) (regBlock s x))) := by
  obtain ⟨hf, rfl⟩ := guarded_eq_next.mp h
  exact ⟨fontEnd_le_of_storeFault_eq_none hf, rfl⟩

theorem exec_opFx65_eq_next {x : Reg} {s t : State} (h : exec (.opFx65 x) s = .next t) :
    t = advance (loadRegs s x) :=
  (guarded_eq_next.mp h).2.symm

/-! ### The program counter -/

theorem transact_step (r : Byte) (s : State) :
    transact (.step r) s = stepReply s (step { s with randIn := [r] }) := rfl

theorem transact_step_fault_keeps_state {s : State} {r : Byte} {code : Nat} {info : Word16}
    (h : (transact (.step r) s).2 = .status code info) (hcode : code ≠ 0) : (transact (.step r) s).1 = s := by
  rw [transact_step] at h ⊢
  cases ho : step { s with randIn := [r] } with
  | next t =>
    rw [ho] at h
    cases h
    exact absurd rfl hcode
  | fault f => rfl
  | refused r => rfl

/-- Settles O18: a fault gives back the state; otherwise by the class of the instruction. -/
theorem pcFollowsTheClassOfTheInstruction : Obligations.PcFollowsTheClassOfTheInstruction := by
  unfold Obligations.PcFollowsTheClassOfTheInstruction
  refine ⟨fun s r code info h hcode => by rw [transact_step_fault_keeps_state h hcode], fun i s t h => ?_⟩
  cases i
  case op00E0 =>
    obtain ⟨bs, rfl⟩ := exec_op00E0_eq_next h
    rfl
  case op00EE =>
    obtain ⟨-, k, hk, hpc, -⟩ := exec_op00EE_eq_next h
    exact ⟨k, hk, hpc⟩
  case op2nnn nnn =>
    obtain ⟨k, -, hpc, -⟩ := exec_op2nnn_eq_next h
    exact hpc
  case op3xkk x kk | op4xkk x kk | op5xy0 x y | op9xy0 x y =>
    cases h
    simp
  case opEx9E x => simp [exec_opEx9E_eq_next h]
  case opExA1 x => simp [exec_opExA1_eq_next h]
  case opFx0A x =>
    obtain ⟨hretire, b, kw, rfl⟩ | ⟨hwait, kw, rfl⟩ := exec_opFx0A_eq_next h
    · exact (if_pos hretire).symm
    · exact (if_neg hwait).symm
  case opDxyn x y n =>
    obtain ⟨vx, vy, flag, rfl⟩ := exec_opDxyn_eq_next h
    rfl
  case opFx33 x =>
    rw [(exec_opFx33_eq_next h).2]
    rfl
  case opFx55 x =>
    rw [(exec_opFx55_eq_next h).2]
    rfl
  case opFx65 x => simp [exec_opFx65_eq_next h]
  all_goals
    cases h
    rfl

/-- An instruction fetched from memory that completes leaves `pc` at most 0x10FE: the largest value is that of Bnnn. -/
theorem pcBounded_of_exec {i : Instr} {s t : State} (hpc : s.pc.toNat ≤ 0xFFE) (hslots : SlotsFetched s)
    (h : exec i s = .next t) : PcBounded t := by
  have near (p : Word16) (hp : p.toNat ≤ 0xFFE) : (p + 2).toNat ≤ 0x10FE ∧ (p + 4).toNat ≤ 0x10FE := by
    constructor <;> bv_omega
  have target (nnn : Addr12) : (nnn.setWidth 16).toNat ≤ 0xFFF := by
    have := nnn.isLt
    simp only [BitVec.toNat_setWidth]
    omega
  have hclass := pcFollowsTheClassOfTheInstruction.2 i s t h
  unfold PcBounded
  cases i <;> dsimp only at hclass
  case op1nnn nnn | op2nnn nnn =>
    rw [hclass]
    exact (target nnn).trans (by decide)
  case opBnnn nnn =>
    have := (getReg s 0#4).isLt
    have := target nnn
    rw [hclass, BitVec.toNat_add, BitVec.toNat_setWidth_of_le (show 8 ≤ 16 by decide)]
    omega
  case op00EE =>
    obtain ⟨k, -, hk⟩ := hclass
    rw [hk]
    exact (near _ (hslots k)).1
  case op3xkk | op4xkk | op5xy0 | op9xy0 | opEx9E | opExA1 =>
    rw [hclass]
    split
    · exact (near _ hpc).2
    · exact (near _ hpc).1
  case opFx0A =>
    rw [hclass]
    split
    · exact (near _ hpc).1
    · exact hpc.trans (by decide)
  all_goals
    rw [hclass]
    exact (near _ hpc).1

/-! ### What an instruction can do to memory and to the stack -/

/-- The ways in which an instruction or a `LOAD` changes memory: not at all, by a block of bytes above the font, or by
drawing. -/
inductive MemEffect (m : List Host.Cell) : List Host.Cell → Prop
  | keeps : MemEffect m m
  | stores (a : Nat) (bs : List Byte) (ha : Config.fontEnd ≤ a) : MemEffect m (memWriteBytes m a bs)
  | draws (i0 vx vy n : Nat) : MemEffect m (drawSprite m i0 vx vy n).mem

theorem MemEffect.memWf {m m' : List Host.Cell} (h : MemEffect m m') (hm : memWf m = true) :
    Machine.memWf m' = true := by
  cases h with
  | keeps => exact hm
  | stores a bs _ => exact memWf_memWriteBytes hm a bs
  | draws i0 vx vy n => exact memWf_drawSprite hm i0 vx vy n

theorem MemEffect.memRead_font {m m' : List Host.Cell} (h : MemEffect m m') {a : Nat} (ha : a < Config.fontEnd) :
    memRead m' a = memRead m a := by
  cases h with
  | keeps => rfl
  | stores b bs hb => exact memRead_memWriteBytes_outside (.inl (Nat.lt_of_lt_of_le ha hb))
  | draws i0 vx vy n => exact memRead_drawSprite_outside m i0 vx vy n (.inl (ha.trans (by decide)))

/-- The ways in which an instruction changes the stack: not at all, by pushing its own address, or by popping. -/
inductive StackEffect (s t : State) : Prop
  | keeps (h : SameStack s t)
  | pushes (k : Fin Config.stackDepth) (hstack : t.stack = s.stack.set k.val s.pc) (hsp : t.sp.val = s.sp.val + 2)
  | pops (hstack : t.stack = s.stack) (hsp : t.sp.val + 2 = s.sp.val)

theorem StackEffect.spEven {s t : State} (h : StackEffect s t) (hs : SpEven s) : SpEven t := by
  unfold SpEven at *
  cases h with
  | keeps h => rwa [h.1]
  | pushes k _ hsp => omega
  | pops _ hsp => omega

theorem StackEffect.slotsFetched {s t : State} (h : StackEffect s t) (hpc : s.pc.toNat ≤ 0xFFE)
    (hs : SlotsFetched s) : SlotsFetched t := by
  intro j
  cases h with
  | keeps h => simpa only [h.2] using hs j
  | pushes k hstack _ =>
    simp only [hstack, Vector.getElem_set]
    split
    · exact hpc
    · exact hs j
  | pops hstack _ => simpa only [hstack] using hs j

theorem effects_of_unchanged {s t : State} (hmem : t.mem = s.mem) (hstack : SameStack s t) :
    MemEffect s.mem t.mem ∧ StackEffect s t :=
  ⟨hmem ▸ .keeps, .keeps hstack⟩

/-- What an instruction that completes can do to memory and to the stack. -/
theorem effects_of_exec {i : Instr} {s t : State} (h : exec i s = .next t) :
    MemEffect s.mem t.mem ∧ StackEffect s t := by
  cases i
  case op00EE =>
    obtain ⟨hle, k, -, -, hmem, hstack, hsp⟩ := exec_op00EE_eq_next h
    exact ⟨hmem ▸ .keeps, .pops hstack (by omega)⟩
  case op2nnn nnn =>
    obtain ⟨k, -, -, hmem, hstack, hsp⟩ := exec_op2nnn_eq_next h
    exact ⟨hmem ▸ .keeps, .pushes k hstack hsp⟩
  case op00E0 =>
    obtain ⟨bs, rfl⟩ := exec_op00E0_eq_next h
    exact ⟨.stores _ bs (by decide), .keeps ⟨rfl, rfl⟩⟩
  case opDxyn x y n =>
    obtain ⟨vx, vy, flag, rfl⟩ := exec_opDxyn_eq_next h
    exact ⟨.draws _ vx vy _, .keeps ⟨rfl, rfl⟩⟩
  case opFx33 x =>
    obtain ⟨hfont, rfl⟩ := exec_opFx33_eq_next h
    exact ⟨.stores _ _ hfont, .keeps ⟨rfl, rfl⟩⟩
  case opFx55 x =>
    obtain ⟨hfont, rfl⟩ := exec_opFx55_eq_next h
    exact ⟨.stores _ _ hfont, .keeps ⟨rfl, rfl⟩⟩
  case opFx65 x =>
    rw [exec_opFx65_eq_next h]
    exact effects_of_unchanged (by simp) (by simp [SameStack])
  case opEx9E x =>
    rw [exec_opEx9E_eq_next h]
    exact effects_of_unchanged rfl ⟨rfl, rfl⟩
  case opExA1 x =>
    rw [exec_opExA1_eq_next h]
    exact effects_of_unchanged rfl ⟨rfl, rfl⟩
  case opFx0A x =>
    obtain ⟨-, b, kw, rfl⟩ | ⟨-, kw, rfl⟩ := exec_opFx0A_eq_next h
    · exact effects_of_unchanged rfl ⟨rfl, rfl⟩
    · exact effects_of_unchanged rfl ⟨rfl, rfl⟩
  all_goals
    cases h
    exact effects_of_unchanged rfl ⟨rfl, rfl⟩

/-! ### The reset state -/

theorem memRead_reset_of_lt {a : Nat} (h : a < Config.fontEnd) : memRead State.reset.mem a = Config.fontByte a :=
  if_pos h

theorem memRead_reset_of_le {a : Nat} (h : Config.fontEnd ≤ a) : memRead State.reset.mem a = 0 :=
  if_neg (Nat.not_lt.mpr h)

@[simp] theorem getReg_reset (r : Reg) : getReg State.reset r = 0 := Vector.getElem_replicate ..

@[simp] theorem getElem_stack_reset (k : Fin Config.stackDepth) : State.reset.stack[k.val] = 0 :=
  Vector.getElem_replicate ..

/-- Settles O49: item by item; the font bytes enter only as the parameter. -/
theorem resetValues : Obligations.ResetValues :=
  ⟨fun _ => memRead_reset_of_lt, fun _ => memRead_reset_of_le, getReg_reset, rfl, rfl, rfl, getElem_stack_reset, rfl,
    rfl, rfl, rfl⟩

/-- Settles O51: each part of the invariant from the value of its item. -/
theorem resetMeetsTheInvariant : Obligations.ResetMeetsTheInvariant :=
  ⟨memWf_reset, fun _ => memRead_reset_of_lt, rfl, show (0x0200#16).toNat ≤ 0x10FE by decide,
    fun k => by rw [getElem_stack_reset]; decide⟩

/-! ### The invariant -/

/-- The invariant speaks of memory, the stack and `pc` alone. -/
theorem inv_congr {s t : State} (hmem : t.mem = s.mem) (hstack : SameStack s t) (hpc : t.pc = s.pc) :
    Inv t ↔ Inv s := by
  obtain ⟨hsp, hslots⟩ := hstack
  simp only [Inv, FontIntact, SpEven, PcBounded, SlotsFetched, hmem, hsp, hslots, hpc]

/-- A change of memory that spares the font keeps the invariant. -/
theorem inv_setMem {s : State} {m : List Host.Cell} (h : MemEffect s.mem m) (hs : Inv s) : Inv (setMem s m) := by
  obtain ⟨hwf, hfont, hsp, hpc, hslots⟩ := hs
  exact ⟨h.memWf hwf, fun a ha => (h.memRead_font ha).trans (hfont a ha), hsp, hpc, hslots⟩

/-- A step that completes keeps the invariant: `pc` was in memory when its instruction was fetched. -/
theorem inv_of_step {s t : State} (hs : Inv s) (h : step s = .next t) : Inv t := by
  obtain ⟨i, hfetch, -, hexec⟩ := step_eq_next h
  obtain ⟨hmem, hstack⟩ := effects_of_exec hexec
  obtain ⟨hwf, hfont, hsp, -, hslots⟩ := hs
  exact ⟨hmem.memWf hwf, fun a ha => (hmem.memRead_font ha).trans (hfont a ha), hstack.spEven hsp,
    pcBounded_of_exec hfetch hslots hexec, hstack.slotsFetched hfetch hslots⟩

theorem inv_resetMachine (s : State) : Inv (resetMachine s) :=
  (inv_congr rfl ⟨rfl, rfl⟩ rfl).mpr resetMeetsTheInvariant

theorem transact_load (program : List Byte) (s : State) :
    transact (.load program) s = loadReply s (loadImage program s) := rfl

/-- An accepted program is stored above the font; a refused one changes nothing. -/
theorem inv_transact_load (program : List Byte) {s : State} (hs : Inv s) : Inv (transact (.load program) s).1 := by
  rw [transact_load, loadImage]
  split
  · exact inv_setMem (.stores _ program (by decide)) hs
  · exact hs

/-- `rand` is on the input for the step alone, and the invariant does not speak of it. -/
theorem inv_transact_step (rand : Byte) {s : State} (hs : Inv s) : Inv (transact (.step rand) s).1 := by
  rw [transact_step]
  cases h : step { s with randIn := [rand] } with
  | next t =>
    have hrand : Inv { s with randIn := [rand] } := (inv_congr rfl ⟨rfl, rfl⟩ rfl).mpr hs
    have ht : Inv t := inv_of_step hrand h
    exact (inv_congr rfl ⟨rfl, rfl⟩ rfl).mpr ht
  | fault f => exact hs
  | refused r => exact hs

/-- Settles O53: RESET, LOAD and STEP by their own lemmas; the other five touch no item the invariant speaks of. -/
theorem everyHostOperationKeepsTheInvariant : Obligations.EveryHostOperationKeepsTheInvariant := by
  unfold Obligations.EveryHostOperationKeepsTheInvariant
  intro o s hs
  cases o with
  | reset => exact inv_resetMachine s
  | load program => exact inv_transact_load program hs
  | step rand => exact inv_transact_step rand hs
  | tick => exact (inv_congr rfl ⟨rfl, rfl⟩ rfl).mpr hs
  | keyDown k => exact (inv_congr rfl ⟨rfl, rfl⟩ rfl).mpr hs
  | keyUp k => exact (inv_congr rfl ⟨rfl, rfl⟩ rfl).mpr hs
  | display => exact hs
  | beep => exact hs

/-- Settles O54, by induction on the operations since the first RESET. -/
theorem reachableStatesMeetTheInvariant : Obligations.ReachableStatesMeetTheInvariant := by
  unfold Obligations.ReachableStatesMeetTheInvariant
  intro s h
  induction h with
  | reset s => exact inv_resetMachine s
  | op o _ ih => exact everyHostOperationKeepsTheInvariant o _ ih

/-! ### The layout of the display -/

/-- Settles O60: the address and the bit are those of `pixelAddr` and `pixelLit`. -/
theorem displayPixelsAreLaidOutByRows : Obligations.DisplayPixelsAreLaidOutByRows := by
  unfold Obligations.DisplayPixelsAreLaidOutByRows
  intro m px py _ _
  rw [pixelLit, pixelAddr]

end Sys2Proof.Machine

/-! ## What the fetch sees: the word at `pc`, and code that was just stored (rules R60, R79, R120, R255) -/

namespace Sys2Proof.Machine

/-! ### The word at `pc` -/

/-- The fetched word by the formula of rule R60. -/
theorem wordOfBytes_eq_ofNat (hi lo : Byte) : wordOfBytes hi lo = BitVec.ofNat 16 (hi.toNat * 256 + lo.toNat) := by
  rw [← toNat_wordOfBytes, BitVec.ofNat_toNat, BitVec.setWidth_eq]

/-- Settles O6: a state fetches what its own memory reads as, at its own `pc`. -/
theorem stepRunsTheDecodedInstruction : Obligations.StepRunsTheDecodedInstruction := by
  unfold Obligations.StepRunsTheDecodedInstruction
  intro s
  have hfetch : FetchSees s (memRead s.mem) := fetchSees_of_reads fun _ _ => rfl
  rw [← wordOfBytes_eq_ofNat]
  exact ⟨fun hpc => (hfetch s.pc hpc).1, fun hpc => (hfetch s.pc hpc).2⟩

/-! ### Memory after a block of bytes is written -/

/-- Inside memory a byte reads as the block has it, where the block lies, and as before elsewhere. -/
theorem memRead_memWriteBytes {m : List Host.Cell} (hm : memWf m = true) (a : Nat) (bs : List Byte) {c : Nat}
    (hc : c ≤ 0xFFF) :
    memRead (memWriteBytes m a bs) c = if a ≤ c ∧ c < a + bs.length then bs.getD (c - a) 0 else memRead m c := by
  split
  case isTrue hin =>
    obtain ⟨k, rfl⟩ := Nat.exists_eq_add_of_le hin.1
    have hk : k < bs.length := Nat.lt_of_add_lt_add_left hin.2
    rw [memRead_memWriteBytes_inside hm hk (Nat.lt_succ_of_le hc), Nat.add_sub_cancel_left,
      List.getD_eq_getElem _ _ hk]
  case isFalse hout => exact memRead_memWriteBytes_outside (by omega)

/-! ### The blocks the instructions store -/

/-- The three digits as rule R194 places them. -/
theorem getD_bcdDigits_sub (b d : Byte) (a c : Nat) :
    (if a ≤ c ∧ c < a + (bcdDigits b).length then (bcdDigits b).getD (c - a) 0 else d) =
      if c = a then BitVec.ofNat 8 (b.toNat / 100)
      else if c = a + 1 then BitVec.ofNat 8 (b.toNat / 10 % 10)
      else if c = a + 2 then BitVec.ofNat 8 (b.toNat % 10)
      else d := by
  rw [length_bcdDigits]
  by_cases hin : a ≤ c ∧ c < a + 3
  · have hpos : c = a ∨ c = a + 1 ∨ c = a + 2 := by omega
    obtain rfl | rfl | rfl := hpos <;> simp [bcdDigits]
  · rw [if_neg hin, if_neg (by omega), if_neg (by omega), if_neg (by omega)]

/-- Byte `k` of the block V0 to Vx, by a number not yet known to be a register's. -/
theorem getD_regBlock {s : State} {x : Reg} {k : Nat} (hk : k ≤ x.toNat) :
    (regBlock s x).getD k 0 = getReg s (BitVec.ofNat 4 k) := by
  have hreg : (BitVec.ofNat 4 k).toNat = k := Nat.mod_eq_of_lt (Nat.lt_of_le_of_lt hk x.isLt)
  have hlen : (BitVec.ofNat 4 k).toNat < (regBlock s x).length := by
    rw [hreg, length_regBlock]
    exact Nat.lt_succ_of_le hk
  rw [← getElem_regBlock s x _ hlen, ← List.getD_eq_getElem _ 0 hlen, hreg]

/-! ### What 00E0, Dxyn and an accepted `LOAD` leave in memory -/

theorem mem_eq_of_exec_op00E0 {s t : State} (h : exec .op00E0 s = .next t) :
    t.mem = memWriteBytes s.mem Config.displayBase (List.replicate Config.displaySize 0) := by
  change exec00E0 s = _ at h
  rw [exec00E0, Host.Outcome.next.injEq] at h
  rw [← h, advance_mem, setMem_mem]

theorem mem_eq_of_exec_opDxyn {x y : Reg} {n : Nibble} {s t : State} (h : exec (.opDxyn x y n) s = .next t) :
    t.mem = (drawSprite s.mem s.i.toNat (getReg s x).toNat (getReg s y).toNat n.toNat).mem := by
  rw [← (guarded_eq_next.mp h).2]
  rfl

theorem mem_eq_of_transact_load {program : List Byte} (s : State) (h : program.length + 0x200 ≤ 4096) :
    (transact (.load program) s).1.mem = memWriteBytes s.mem Config.programBase program := by
  rw [transact_load, loadImage, if_pos (imageWellFormed_iff.mpr h)]
  rfl

/-! ### Stored code is fetched next -/

theorem fetchSees_of_exec_opFx33 {x : Reg} {s t : State} (hm : memWf s.mem = true) (h : exec (.opFx33 x) s = .next t) :
    FetchSees t fun a =>
      if a = s.i.toNat then BitVec.ofNat 8 ((getReg s x).toNat / 100)
      else if a = s.i.toNat + 1 then BitVec.ofNat 8 ((getReg s x).toNat / 10 % 10)
      else if a = s.i.toNat + 2 then BitVec.ofNat 8 ((getReg s x).toNat % 10)
      else memRead s.mem a := by
  obtain ⟨-, rfl⟩ := exec_opFx33_eq_next h
  refine fetchSees_of_reads fun a ha => ?_
  rw [advance_mem, setMem_mem, memRead_memWriteBytes hm _ _ ha, getD_bcdDigits_sub]
  rfl

theorem fetchSees_of_exec_opFx55 {x : Reg} {s t : State} (hm : memWf s.mem = true) (h : exec (.opFx55 x) s = .next t) :
    FetchSees t fun a =>
      if s.i.toNat ≤ a ∧ a ≤ s.i.toNat + x.toNat then getReg s (BitVec.ofNat 4 (a - s.i.toNat))
      else memRead s.mem a := by
  obtain ⟨-, rfl⟩ := exec_opFx55_eq_next h
  refine fetchSees_of_reads fun a ha => ?_
  rw [advance_mem, setMem_mem, memRead_memWriteBytes hm _ _ ha, length_regBlock]
  refine ite_congr ?_ (fun hin => ?_) fun _ => rfl
  · simp only [effAddr, blockLength, Nat.add_zero, ← Nat.add_assoc, Nat.lt_succ_iff]
  · exact getD_regBlock (Nat.sub_le_iff_le_add'.mpr hin.2)

theorem fetchSees_of_exec_op00E0 {s t : State} (hm : memWf s.mem = true) (h : exec .op00E0 s = .next t) :
    FetchSees t fun a => if 0xF00 ≤ a ∧ a ≤ 0xFFF then 0 else memRead s.mem a := by
  refine fetchSees_of_reads fun a ha => ?_
  rw [mem_eq_of_exec_op00E0 h, memRead_memWriteBytes hm _ _ ha, List.length_replicate]
  refine ite_congr ?_ (fun hin => ?_) fun _ => rfl
  · exact propext (and_congr_right fun _ => Nat.lt_succ_iff)
  · exact List.getD_replicate _ (Nat.sub_lt_left_of_lt_add hin.1 (Nat.lt_succ_of_le hin.2))

theorem fetchSees_of_transact_load {program : List Byte} {s : State} (hm : memWf s.mem = true)
    (h : program.length + 0x200 ≤ 4096) :
    FetchSees (transact (.load program) s).1 fun a =>
      if 0x200 ≤ a ∧ a < 0x200 + program.length then program.getD (a - 0x200) 0 else memRead s.mem a :=
  fetchSees_of_reads fun a ha => by rw [mem_eq_of_transact_load s h, memRead_memWriteBytes hm _ _ ha]

/-- Settles O37: each store by the block it leaves in memory, since a fetch sees what memory reads as. -/
theorem storedCodeIsFetchedNext : Obligations.StoredCodeIsFetchedNext := by
  unfold Obligations.StoredCodeIsFetchedNext
  intro s hm
  refine ⟨fun x t h => ?fx33, fun x t h => ?fx55, fun t h => ?clear, fun x y n t h => ?draw, fun program h => ?load⟩
  case fx33 => exact fetchSees_of_exec_opFx33 hm h
  case fx55 => exact fetchSees_of_exec_opFx55 hm h
  case clear => exact fetchSees_of_exec_op00E0 hm h
  case draw => exact fetchSees_of_reads fun a _ => congrArg (memRead · a) (mem_eq_of_exec_opDxyn h)
  case load => exact fetchSees_of_transact_load hm h

end Sys2Proof.Machine

/-! ## Jumps: where they go, and that only `pc` changes (rules R122, R124) -/

namespace Sys2Proof.Machine

theorem onlyPc_setPc (s : State) (p : Word16) : OnlyPc s (setPc s p) :=
  ⟨fun r _ => getReg_setPc s p r, fun _ => rfl, rfl, ⟨rfl, rfl⟩, ⟨rfl, rfl⟩, ⟨rfl, rfl⟩, ⟨rfl, rfl⟩⟩

theorem toNat_addrTarget (nnn : Addr12) : (addrTarget nnn).toNat = nnn.toNat :=
  BitVec.toNat_setWidth_of_le (by decide)

/-- The sum never wraps: it is at most 0x10FE. -/
theorem toNat_offsetTarget (nnn : Addr12) (v0 : Byte) : (offsetTarget nnn v0).toNat = nnn.toNat + v0.toNat := by
  have hnnn : (nnn.setWidth 16).toNat = nnn.toNat := toNat_addrTarget nnn
  have hv0 : (v0.setWidth 16).toNat = v0.toNat := BitVec.toNat_setWidth_of_le (by decide)
  rw [offsetTarget, BitVec.toNat_add, hnnn, hv0]
  omega

/-- Settles O13: each jump is `setPc` at its target. -/
theorem jumpsSetThePc : Obligations.JumpsSetThePc := by
  unfold Obligations.JumpsSetThePc
  intro s nnn
  constructor
  · exact ⟨setPc s (addrTarget nnn), rfl, toNat_addrTarget nnn, onlyPc_setPc s _⟩
  · exact ⟨setPc s (offsetTarget nnn (getReg s 0#4)), rfl, toNat_offsetTarget nnn _, onlyPc_setPc s _⟩

end Sys2Proof.Machine

/-! ## Register skips: which way each goes, and that only `pc` changes (rules R141 to R144) -/

namespace Sys2Proof.Machine

theorem onlyPc_skipIf (c : Bool) (s : State) : OnlyPc s (skipIf c s) := onlyPc_setPc s _

theorem skipIf_beq_pc (s : State) (a b : Byte) : (skipIf (a == b) s).pc = if a = b then s.pc + 4 else s.pc + 2 := by
  simp only [skipIf_pc, beq_iff_eq]

theorem skipIf_bne_pc (s : State) (a b : Byte) : (skipIf (a != b) s).pc = if a = b then s.pc + 2 else s.pc + 4 := by
  simp only [skipIf_pc, bne_iff_ne, ite_not]

/-- Settles O19: each skip is `skipIf` at its comparison. -/
theorem registerSkipsComplete : Obligations.RegisterSkipsComplete := by
  unfold Obligations.RegisterSkipsComplete
  intro s x y kk
  refine ⟨?op3xkk, ?op4xkk, ?op5xy0, ?op9xy0⟩
  case op3xkk => exact ⟨skipIf (getReg s x == kk) s, rfl, skipIf_beq_pc s _ _, onlyPc_skipIf _ s⟩
  case op4xkk => exact ⟨skipIf (getReg s x != kk) s, rfl, skipIf_bne_pc s _ _, onlyPc_skipIf _ s⟩
  case op5xy0 => exact ⟨skipIf (getReg s x == getReg s y) s, rfl, skipIf_beq_pc s _ _, onlyPc_skipIf _ s⟩
  case op9xy0 => exact ⟨skipIf (getReg s x != getReg s y) s, rfl, skipIf_bne_pc s _ _, onlyPc_skipIf _ s⟩

end Sys2Proof.Machine

/-! ## Load, add, copy and logic: what each leaves in Vx and VF, and that nothing else changes (rules R161 to R167) -/

namespace Sys2Proof.Machine

/-! ### The frame of a register write -/

theorem onlyRegsAndPc_refl (ds : List Reg) (s : State) : OnlyRegsAndPc ds s s :=
  ⟨fun _ _ => rfl, fun _ => rfl, rfl, ⟨rfl, rfl⟩, ⟨rfl, rfl⟩, ⟨rfl, rfl⟩, ⟨rfl, rfl⟩⟩

theorem onlyRegsAndPc_advance {ds : List Reg} {s t : State} (h : OnlyRegsAndPc ds s t) :
    OnlyRegsAndPc ds s (advance t) := h

theorem onlyRegsAndPc_setReg {ds : List Reg} {s t : State} (h : OnlyRegsAndPc ds s t) {r : Reg} (hr : r ∈ ds)
    (b : Byte) : OnlyRegsAndPc ds s (setReg t r b) := by
  obtain ⟨hregs, hrest⟩ := h
  refine ⟨fun q hq => ?_, hrest⟩
  have hne : q ≠ r := fun hqr => hq (hqr ▸ hr)
  rw [getReg_setReg, if_neg hne, hregs q hq]

/-! ### One register written -/

theorem getReg_advance_setReg_self (s : State) (x : Reg) (b : Byte) : getReg (advance (setReg s x b)) x = b := by
  rw [getReg_advance, getReg_setReg, if_pos rfl]

theorem onlyRegsAndPc_advance_setReg (s : State) (x : Reg) (b : Byte) :
    OnlyRegsAndPc [x] s (advance (setReg s x b)) :=
  onlyRegsAndPc_advance (onlyRegsAndPc_setReg (onlyRegsAndPc_refl _ s) List.mem_cons_self b)

/-- Settles O21: each is one `setReg` of Vx. -/
theorem loadAddAndCopyWriteOneRegister : Obligations.LoadAddAndCopyWriteOneRegister := by
  unfold Obligations.LoadAddAndCopyWriteOneRegister
  intro s x y kk
  refine ⟨⟨_, rfl, ?load, rfl, onlyRegsAndPc_advance_setReg s x _⟩,
    ⟨_, rfl, ?add, rfl, onlyRegsAndPc_advance_setReg s x _⟩,
    ⟨_, rfl, ?copy, rfl, onlyRegsAndPc_advance_setReg s x _⟩⟩
  case load => exact getReg_advance_setReg_self s x _
  case add => rw [getReg_advance_setReg_self, BitVec.toNat_add]
  case copy => exact getReg_advance_setReg_self s x _

/-- Settles O22: each is one `setReg` of Vx, and the operation on the bytes is the one on their bits. -/
theorem logicWorksBitByBit : Obligations.LogicWorksBitByBit := by
  unfold Obligations.LogicWorksBitByBit
  intro s x y
  refine ⟨⟨_, rfl, fun k _ => ?or, rfl, onlyRegsAndPc_advance_setReg s x _⟩,
    ⟨_, rfl, fun k _ => ?and, rfl, onlyRegsAndPc_advance_setReg s x _⟩,
    ⟨_, rfl, fun k _ => ?xor, rfl, onlyRegsAndPc_advance_setReg s x _⟩⟩
  case or => rw [getReg_advance_setReg_self, BitVec.getLsbD_or]
  case and => rw [getReg_advance_setReg_self, BitVec.getLsbD_and]
  case xor => rw [getReg_advance_setReg_self, BitVec.getLsbD_xor]

/-! ### The result and then the flag -/

theorem toNat_carryFlag (a b : Byte) : (carryFlag a b).toNat = if a.toNat + b.toNat > 255 then 1 else 0 := by
  simp only [carryFlag, toNat_flagByte, decide_eq_true_eq]

theorem onlyRegsAndPc_resultThenFlag (s : State) (x : Reg) (result flag : Byte) :
    OnlyRegsAndPc [x, VF] s (resultThenFlag s x result flag) :=
  onlyRegsAndPc_setReg (onlyRegsAndPc_setReg (onlyRegsAndPc_refl _ s) List.mem_cons_self result)
    (List.mem_cons_of_mem x List.mem_cons_self) flag

/-- Settles O23: the carry is computed from the old operands and written last, so it stands also for `x = 15`. -/
theorem addSetsTheCarry : Obligations.AddSetsTheCarry := by
  unfold Obligations.AddSetsTheCarry
  intro s x y
  refine ⟨_, rfl, ?flag, fun hx => ?sum, rfl, onlyRegsAndPc_advance (onlyRegsAndPc_resultThenFlag s x _ _)⟩
  case flag => rw [getReg_advance, getReg_resultThenFlag, if_pos rfl, toNat_carryFlag]
  case sum => rw [getReg_advance, getReg_resultThenFlag, if_neg hx, if_pos rfl, BitVec.toNat_add]

end Sys2Proof.Machine

/-! ## Loads of the index register: the value each leaves in `I`, and that only `I` and `pc` change (rules R191, R193) -/

namespace Sys2Proof.Machine

theorem toNat_indexImm (nnn : Addr12) : (indexImm Config.iWidth nnn).toNat = nnn.toNat :=
  BitVec.toNat_setWidth_of_le (Nat.le_refl Config.iWidth)

/-- The value never wraps: `5 * 255` is below 4096. -/
theorem toNat_glyphIndex (vx : Byte) : (glyphIndex Config.iWidth vx).toNat = 5 * vx.toNat := by
  have hvx : vx.toNat < 2 ^ 8 := vx.isLt
  have hfit : Config.fontBase + 5 * vx.toNat < 2 ^ Config.iWidth := by
    simp only [Config.fontBase, Config.iWidth]
    omega
  rw [glyphIndex, BitVec.toNat_ofNat, Nat.mod_eq_of_lt hfit, Nat.zero_add]

theorem sameExceptIndex_advance_setIndex (s : State) (w : BitVec Config.iWidth) :
    SameRegsExcept [] s (advance (setIndex s w)) ∧ SameMem s (advance (setIndex s w)) ∧
      SameStack s (advance (setIndex s w)) ∧ SameTimers s (advance (setIndex s w)) ∧
      SameKeypad s (advance (setIndex s w)) ∧ SameRandom s (advance (setIndex s w)) :=
  ⟨fun r _ => getReg_setIndex s w r, fun _ => rfl, ⟨rfl, rfl⟩, ⟨rfl, rfl⟩, ⟨rfl, rfl⟩, ⟨rfl, rfl⟩⟩

/-- Settles O30: each is `setIndex` at its value, then `advance`. -/
theorem indexLoadsComplete : Obligations.IndexLoadsComplete := by
  unfold Obligations.IndexLoadsComplete
  intro s x nnn
  constructor
  · exact ⟨_, rfl, toNat_indexImm nnn, rfl, sameExceptIndex_advance_setIndex s _⟩
  · exact ⟨_, rfl, toNat_glyphIndex (getReg s x), rfl, sameExceptIndex_advance_setIndex s _⟩

end Sys2Proof.Machine

/-! ## Clearing the display: the 256 bytes read 0, and only they and `pc` change (rule R211) -/

namespace Sys2Proof.Machine

/-- The frame of an instruction that stores to memory and writes no register. -/
theorem onlyRegsMemAndPc_advance_setMem {stored : Nat → Prop} {s : State} {m : List Host.Cell}
    (h : ∀ a, ¬ stored a → memRead m a = memRead s.mem a) :
    OnlyRegsMemAndPc [] stored s (advance (setMem s m)) :=
  ⟨fun _ _ => rfl, h, rfl, ⟨rfl, rfl⟩, ⟨rfl, rfl⟩, ⟨rfl, rfl⟩, ⟨rfl, rfl⟩⟩

theorem memRead_zeroedDisplay_inside {m : List Host.Cell} (hm : memWf m = true) {a : Nat} (hlo : 0xF00 ≤ a)
    (hhi : a ≤ 0xFFF) :
    memRead (memWriteBytes m Config.displayBase (List.replicate Config.displaySize 0)) a = 0 := by
  obtain ⟨k, rfl⟩ := Nat.exists_eq_add_of_le hlo
  have hk : k < (List.replicate Config.displaySize (0 : Byte)).length := by
    rw [List.length_replicate, Config.displaySize]
    omega
  rw [memRead_memWriteBytes_inside hm hk (Nat.lt_succ_of_le hhi), List.getElem_replicate]

theorem memRead_zeroedDisplay_outside (m : List Host.Cell) {a : Nat} (ha : ¬ (0xF00 ≤ a ∧ a ≤ 0xFFF)) :
    memRead (memWriteBytes m Config.displayBase (List.replicate Config.displaySize 0)) a = memRead m a := by
  apply memRead_memWriteBytes_outside
  rw [List.length_replicate, Config.displayBase, Config.displaySize]
  omega

/-- Settles O39: the one block written is the display, all of it zero. -/
theorem clearZeroesTheDisplay : Obligations.ClearZeroesTheDisplay := by
  unfold Obligations.ClearZeroesTheDisplay
  intro s hm
  refine ⟨_, rfl, fun a hlo hhi => ?zeroed, ?pc, onlyRegsMemAndPc_advance_setMem fun a ha => ?kept⟩
  case zeroed => rw [advance_mem, setMem_mem, memRead_zeroedDisplay_inside hm hlo hhi]
  case pc => rw [advance_pc, setMem_pc]
  case kept => exact memRead_zeroedDisplay_outside s.mem ha

end Sys2Proof.Machine

/-! ## The timer moves and the key wait: what each leaves in each item of the state (rules R233 to R236, R238) -/

namespace Sys2Proof.Machine

/-! ### The timer moves -/

/-- Only the timers and `pc` may differ. -/
def SameExceptTimersAndPc (s t : State) : Prop :=
  SameRegsExcept [] s t ∧ SameMem s t ∧ t.i = s.i ∧ SameStack s t ∧ SameKeypad s t ∧ SameRandom s t

theorem sameExceptTimersAndPc_advance_setDelay (s : State) (b : Byte) :
    SameExceptTimersAndPc s (advance (setDelay s b)) :=
  ⟨fun r _ => getReg_setDelay s b r, fun _ => rfl, rfl, ⟨rfl, rfl⟩, ⟨rfl, rfl⟩, ⟨rfl, rfl⟩⟩

theorem sameExceptTimersAndPc_advance_setSound (s : State) (b : Byte) :
    SameExceptTimersAndPc s (advance (setSound s b)) :=
  ⟨fun r _ => getReg_setSound s b r, fun _ => rfl, rfl, ⟨rfl, rfl⟩, ⟨rfl, rfl⟩, ⟨rfl, rfl⟩⟩

/-- Settles O44: each is one write, of Vx, `DT` or `ST`, then `advance`. -/
theorem timerMovesComplete : Obligations.TimerMovesComplete := by
  unfold Obligations.TimerMovesComplete
  intro s x
  refine ⟨?fx07, ?fx15, ?fx18⟩
  case fx07 =>
    exact ⟨_, rfl, getReg_advance_setReg_self s x s.dt, rfl, onlyRegsAndPc_advance_setReg s x _⟩
  case fx15 =>
    exact ⟨advance (setDelay s (getReg s x)), rfl, rfl, rfl, rfl, sameExceptTimersAndPc_advance_setDelay s _⟩
  case fx18 =>
    exact ⟨advance (setSound s (getReg s x)), rfl, rfl, rfl, rfl, sameExceptTimersAndPc_advance_setSound s _⟩

/-! ### The rows of the key wait's table -/

section

variable {s : State} (x : Reg)

theorem exec_opFx0A_of_unlatched_of_no_key (hl : s.kw.latched = false) (hk : s.keys = 0) :
    exec (.opFx0A x) s = .next s := by
  change execFx0A x s = _
  rw [execFx0A, if_neg (Bool.eq_false_iff.mp hl), if_pos hk]

theorem exec_opFx0A_of_unlatched_of_key (hl : s.kw.latched = false) (hk : s.keys ≠ 0) :
    exec (.opFx0A x) s = .next (setWait s { latched := true, key := lowestKey s.keys }) := by
  change execFx0A x s = _
  rw [execFx0A, if_neg (Bool.eq_false_iff.mp hl), if_neg hk]

theorem exec_opFx0A_of_latched_of_key (hl : s.kw.latched = true) (hk : s.keys ≠ 0) :
    exec (.opFx0A x) s = .next s := by
  change execFx0A x s = _
  rw [execFx0A, if_pos hl, if_neg hk]

theorem exec_opFx0A_of_latched_of_no_key (hl : s.kw.latched = true) (hk : s.keys = 0) :
    exec (.opFx0A x) s =
      .next (advance (setWait (setReg s x (s.kw.key.setWidth 8)) { latched := false, key := s.kw.key })) := by
  change execFx0A x s = _
  rw [execFx0A, if_pos hl, if_pos hk]

end

/-! ### The frame of the key wait -/

/-- Only the registers `ds`, the keypad and `pc` may differ. -/
def SameExceptRegsKeypadAndPc (ds : List Reg) (s t : State) : Prop :=
  SameRegsExcept ds s t ∧ SameMem s t ∧ t.i = s.i ∧ SameStack s t ∧ SameTimers s t ∧ SameRandom s t

theorem sameExceptRegsKeypadAndPc_setWait {ds : List Reg} {s t : State} (h : OnlyRegsAndPc ds s t) (kw : KeyWait) :
    SameExceptRegsKeypadAndPc ds s (setWait t kw) := by
  obtain ⟨hregs, hmem, hi, hstack, htimers, -, hrandom⟩ := h
  exact ⟨hregs, hmem, hi, hstack, htimers, hrandom⟩

theorem sameExceptRegsKeypadAndPc_advance {ds : List Reg} {s t : State} (h : SameExceptRegsKeypadAndPc ds s t) :
    SameExceptRegsKeypadAndPc ds s (advance t) := h

/-- The register that receives the latched key reads as the key's number. -/
theorem toNat_getReg_setReg_key (s : State) (x : Reg) (k : Key) :
    (getReg (setReg s x (k.setWidth 8)) x).toNat = k.toNat := by
  rw [getReg_setReg, if_pos rfl, BitVec.toNat_setWidth_of_le (by decide)]

/-- Settles O45, row by row; the key latched is the lowest one held. -/
theorem keyWaitFollowsItsTable : Obligations.KeyWaitFollowsItsTable := by
  unfold Obligations.KeyWaitFollowsItsTable
  intro s x
  refine ⟨exec_opFx0A_of_unlatched_of_no_key x, fun hl hk => ?latches, exec_opFx0A_of_latched_of_key x,
    fun hl hk => ?retires⟩
  case latches =>
    obtain ⟨hheld, hlowest⟩ := lowestKey_spec hk
    exact ⟨_, exec_opFx0A_of_unlatched_of_key x hl hk, rfl, hheld, hlowest, rfl, rfl,
      sameExceptRegsKeypadAndPc_setWait (onlyRegsAndPc_refl [] s) _⟩
  case retires =>
    have hwrite : OnlyRegsAndPc [x] s (setReg s x (s.kw.key.setWidth 8)) :=
      onlyRegsAndPc_setReg (onlyRegsAndPc_refl [x] s) List.mem_cons_self _
    exact ⟨_, exec_opFx0A_of_latched_of_no_key x hl hk, toNat_getReg_setReg_key s x s.kw.key, rfl, rfl, rfl, rfl,
      sameExceptRegsKeypadAndPc_advance (sameExceptRegsKeypadAndPc_setWait hwrite _)⟩

end Sys2Proof.Machine

/-! ## Ticks, key events and the two read-only operations (rules R271 to R275) -/

namespace Sys2Proof.Machine

/-- Settles O56: each timer is `tickDown` of itself. -/
theorem tickDecrementsBothTimers : Obligations.TickDecrementsBothTimers :=
  fun s => ⟨toNat_tickDown s.dt, toNat_tickDown s.st, rfl⟩

theorem getLsbD_keys_keyDown (s : State) (k : Key) {j : Nat} (hj : j < 16) :
    (keyDown k s).keys.getLsbD j = (s.keys.getLsbD j || decide (j = k.toNat)) := by
  rw [keyDown, setKeys_keys, BitVec.getLsbD_or, getLsbD_keyBit k hj]

theorem getLsbD_keys_keyUp (s : State) (k : Key) {j : Nat} (hj : j < 16) :
    (keyUp k s).keys.getLsbD j = (s.keys.getLsbD j && decide (j ≠ k.toNat)) := by
  rw [keyUp, setKeys_keys, BitVec.getLsbD_and, BitVec.getLsbD_not, getLsbD_keyBit k hj, decide_eq_true hj,
    Bool.true_and, decide_not]

/-- Settles O57: the mask of the key is or-ed in, or its complement and-ed in, and only `keys` is written. -/
theorem keyEventsChangeOneBit : Obligations.KeyEventsChangeOneBit :=
  fun s k => ⟨fun _ hj => getLsbD_keys_keyDown s k hj, fun _ hj => getLsbD_keys_keyUp s k hj, rfl, rfl⟩

theorem length_displayBuffer (s : State) : (displayBuffer s).length = 256 := by
  rw [displayBuffer, List.length_map, List.length_range, Config.displaySize]

theorem getElem_displayBuffer (s : State) {j : Nat} (h : j < (displayBuffer s).length) :
    (displayBuffer s)[j] = memRead s.mem (0xF00 + j) := by
  simp only [displayBuffer, List.getElem_map, List.getElem_range, Config.displayBase]

/-- The beep level is the comparison of rule R275. -/
theorem shouldBeep_eq_decide_pos (s : State) : shouldBeep s = decide (s.st.toNat > 0) := by
  rw [shouldBeep, decide_eq_decide, Ne, BitVec.toNat_eq]
  exact Nat.pos_iff_ne_zero.symm

/-- Settles O59: both reads answer from the state they are given and hand it back. -/
theorem displayAndBeepAreReadOnly : Obligations.DisplayAndBeepAreReadOnly := by
  unfold Obligations.DisplayAndBeepAreReadOnly
  intro s
  constructor
  · exact ⟨displayBuffer s, rfl, length_displayBuffer s, fun _ h => getElem_displayBuffer s h⟩
  · rw [← shouldBeep_eq_decide_pos, transact]

end Sys2Proof.Machine

/-! ## `LOAD`: a program that fits is copied, a longer one refused (rules R260, R294) -/

namespace Sys2Proof.Machine

theorem transact_load_of_fits {program : List Byte} (s : State) (h : program.length + 0x200 ≤ 4096) :
    transact (.load program) s = (setMem s (memWriteBytes s.mem Config.programBase program), .loaded true) := by
  rw [transact_load, loadImage, if_pos (imageWellFormed_iff.mpr h), loadReply]

theorem transact_load_of_oversized {program : List Byte} (s : State) (h : program.length + 0x200 > 4096) :
    transact (.load program) s = (s, .loaded false) := by
  rw [transact_load, loadImage, if_neg (mt imageWellFormed_iff.mp (Nat.not_le_of_gt h)), loadReply]

/-- Settles O58: an accepted `LOAD` is one block write to memory, read back inside the block and without effect outside
it. -/
theorem loadCopiesOrRefuses : Obligations.LoadCopiesOrRefuses := by
  unfold Obligations.LoadCopiesOrRefuses
  intro s program hm
  refine ⟨fun hfits => ?accepted, transact_load_of_oversized s⟩
  rw [transact_load_of_fits s hfits]
  refine ⟨rfl, fun j hj => ?copied, fun a ha => ?kept, rfl⟩
  case copied =>
    have hin : Config.programBase + j < Config.memSize := by
      simp only [Config.programBase, Config.memSize]
      omega
    exact memRead_memWriteBytes_inside hm hj hin
  case kept => exact memRead_memWriteBytes_outside ha

end Sys2Proof.Machine

/-! ## The step keeps the invariant; canonical memory is determined by its bytes (rules R26, R42, R48, R125) -/

namespace Sys2Proof.Machine

/-- Settles O52: the instruction fetched from a `pc` in memory keeps each part. -/
theorem stepKeepsTheInvariant : Obligations.StepKeepsTheInvariant :=
  fun _ _ => inv_of_step

/-! ### Equal bytes are equal memories -/

theorem memWfFrom_cons {lo k : Nat} {b : Byte} {m : List Host.Cell} :
    memWfFrom lo ((k, b) :: m) = true ↔
      lo ≤ k ∧ k < Config.memSize ∧ b ≠ unlisted k ∧ memWfFrom (k + 1) m = true := by
  simp only [memWfFrom, Bool.and_eq_true, decide_eq_true_eq, and_assoc]

theorem memRead_cons_self (k : Nat) (b : Byte) (m : List Host.Cell) : memRead ((k, b) :: m) k = b :=
  if_pos rfl

/-- A listed address does not read as unlisted. -/
theorem memRead_head_ne_unlisted {lo k : Nat} {b : Byte} {m : List Host.Cell}
    (h : memWfFrom lo ((k, b) :: m) = true) : memRead ((k, b) :: m) k ≠ unlisted k := by
  obtain ⟨-, -, hb, -⟩ := memWfFrom_cons.mp h
  rwa [memRead_cons_self]

/-- Below its first address a list reads as unlisted. -/
theorem memRead_of_lt_head {lo k a : Nat} {b : Byte} {m : List Host.Cell} (h : memWfFrom lo ((k, b) :: m) = true)
    (ha : a < k) : memRead ((k, b) :: m) a = unlisted a := by
  obtain ⟨-, hk, hb, hm⟩ := memWfFrom_cons.mp h
  exact memRead_of_lt (memWfFrom_cons.mpr ⟨Nat.le_refl k, hk, hb, hm⟩) ha

/-- By induction on the first list: the lowest listed address of the one is that of the other, with the same byte. -/
theorem eq_of_memRead_eq {lo : Nat} {m m' : List Host.Cell} (h : memWfFrom lo m = true) (h' : memWfFrom lo m' = true)
    (heq : ∀ a, a < Config.memSize → memRead m a = memRead m' a) : m = m' := by
  induction m generalizing lo m' with
  | nil =>
    cases m' with
    | nil => rfl
    | cons c' m' =>
      obtain ⟨-, hk', -⟩ := memWfFrom_cons.mp h'
      exact absurd (heq c'.1 hk').symm (memRead_head_ne_unlisted h')
  | cons c m ih =>
    obtain ⟨k, b⟩ := c
    obtain ⟨-, hk, -, hm⟩ := memWfFrom_cons.mp h
    cases m' with
    | nil => exact absurd (heq k hk) (memRead_head_ne_unlisted h)
    | cons c' m' =>
      obtain ⟨k', b'⟩ := c'
      obtain ⟨-, hk', -, hm'⟩ := memWfFrom_cons.mp h'
      obtain hlt | rfl | hlt := Nat.lt_trichotomy k k'
      · exact absurd ((heq k hk).trans (memRead_of_lt_head h' hlt)) (memRead_head_ne_unlisted h)
      · have hb : b = b' := by simpa only [memRead_cons_self] using heq k hk
        have htail : ∀ a, a < Config.memSize → memRead m a = memRead m' a := by
          intro a ha
          by_cases hka : k = a
          · subst hka
            rw [memRead_of_lt hm (Nat.lt_succ_self k), memRead_of_lt hm' (Nat.lt_succ_self k)]
          · simpa only [memRead, if_neg hka] using heq a ha
        rw [hb, ih hm hm' htail]
      · exact absurd ((heq k' hk').symm.trans (memRead_of_lt_head h hlt)) (memRead_head_ne_unlisted h')

/-- Settles O55: the lists agree from address 0 up. -/
theorem equalBytesAreEqualMemories : Obligations.EqualBytesAreEqualMemories :=
  fun _ _ h h' heq => eq_of_memRead_eq h h' fun a ha => heq a (Nat.le_of_lt_succ ha)

end Sys2Proof.Machine

/-! ## The decoder and the encoder undo each other, and the decoder is total (rules R90 to R97) -/

namespace Sys2Proof

/-! ### A word from its fields -/

theorem wordA_fields (op : Word16) : wordA (fieldT op) (fieldNNN op) = op := by
  apply BitVec.eq_of_toNat_eq
  rw [toNat_wordA, fieldT, fieldNNN, toNat_field, toNat_field]
  omega

theorem wordXK_fields (op : Word16) : wordXK (fieldT op) (fieldX op) (fieldKK op) = op := by
  apply BitVec.eq_of_toNat_eq
  rw [toNat_wordXK, fieldT, fieldX, fieldKK, toNat_field, toNat_field, toNat_field]
  omega

theorem wordXY_fields (op : Word16) : wordXY (fieldT op) (fieldX op) (fieldY op) (fieldN op) = op := by
  apply BitVec.eq_of_toNat_eq
  rw [toNat_wordXY, fieldT, fieldX, fieldY, fieldN, toNat_field, toNat_field, toNat_field, toNat_field]
  omega

/-! ### Decoding what was encoded -/

theorem decodeWord_encode (i : Instr) : decodeWord (encode i) = .ok i := by
  cases i
  case op00E0 | op00EE => decide
  all_goals simp [encode, decodeWord, decode8, decodeE, decodeF]

theorem decodeBytes_bytesOfWord {op : Word16} {i : Instr} (h : decodeWord op = .ok i) (rest : List Byte) :
    decodeBytes (bytesOfWord op ++ rest) = .ok (i, rest) := by
  simp only [bytesOfWord, List.cons_append, List.nil_append, decodeBytes, wordOfBytes_bytesOfWord, h]

/-- Settles O1: each format gives its fields back, and the two bytes give the word back. -/
theorem decodeUndoesEncode : Obligations.DecodeUndoesEncode :=
  fun i => ⟨decodeWord_encode i, decodeBytes_bytesOfWord (decodeWord_encode i)⟩

/-! ### Encoding what was decoded -/

theorem encode_of_decode0 {op : Word16} {i : Instr} (h : decode0 op = .ok i) : encode i = op := by
  unfold decode0 at h
  split at h
  · cases h
    exact Eq.symm ‹_›
  · split at h
    · cases h
      exact Eq.symm ‹_›
    · cases h

theorem encode_of_decode8 {op : Word16} {i : Instr} (ht : fieldT op = 0x8#4) (h : decode8 op = .ok i) :
    encode i = op := by
  have hword := wordXY_fields op
  rw [ht] at hword
  unfold decode8 at h
  split at h
  case h_10 => cases h
  all_goals
    rename_i hn
    rw [hn] at hword
    cases h
    exact hword

theorem encode_of_decodeE {op : Word16} {i : Instr} (ht : fieldT op = 0xE#4) (h : decodeE op = .ok i) :
    encode i = op := by
  have hword := wordXK_fields op
  rw [ht] at hword
  unfold decodeE at h
  split at h
  case h_3 => cases h
  all_goals
    rename_i hkk
    rw [hkk] at hword
    cases h
    exact hword

theorem encode_of_decodeF {op : Word16} {i : Instr} (ht : fieldT op = 0xF#4) (h : decodeF op = .ok i) :
    encode i = op := by
  have hword := wordXK_fields op
  rw [ht] at hword
  unfold decodeF at h
  split at h
  case h_10 => cases h
  all_goals
    rename_i hkk
    rw [hkk] at hword
    cases h
    exact hword

/-- By the family nibble: the fields an instruction holds, with the fixed ones of its row, are all of its word. -/
theorem encode_of_decodeWord {op : Word16} {i : Instr} (h : decodeWord op = .ok i) : encode i = op := by
  have hA := wordA_fields op
  have hXK := wordXK_fields op
  have hXY := wordXY_fields op
  unfold decodeWord at h
  split at h <;> rename_i ht
  case h_1 => exact encode_of_decode0 h
  case h_9 => exact encode_of_decode8 ht h
  case h_15 => exact encode_of_decodeE ht h
  case h_16 => exact encode_of_decodeF ht h
  case h_17 => cases h
  case h_2 | h_3 | h_11 | h_12 =>
    cases h
    rwa [ht] at hA
  case h_4 | h_5 | h_7 | h_8 | h_13 =>
    cases h
    rwa [ht] at hXK
  case h_14 =>
    cases h
    rwa [ht] at hXY
  case h_6 | h_10 =>
    split at h
    · rename_i hn
      rw [ht, hn] at hXY
      cases h
      exact hXY
    · cases h

/-- Settles O2, family by family. -/
theorem encodeUndoesDecode : Obligations.EncodeUndoesDecode :=
  fun _ _ => encode_of_decodeWord

/-! ### What is rejected is the word itself -/

theorem error_eq_invalid {op : Word16} {e : DecodeError} (h : decodeWord op = .error e) : e = .invalid op := by
  unfold decodeWord decode0 decode8 decodeE decodeF at h
  simp only at h
  repeat' split at h
  all_goals cases h <;> rfl


/-! ### The fields the masks of the opcode map single out -/

section

variable {op mask bits : Word16}

theorem extractLsb'_of_and_eq (h : op &&& mask = bits) {lo len : Nat}
    (hmask : mask.extractLsb' lo len = BitVec.allOnes len) : op.extractLsb' lo len = bits.extractLsb' lo len := by
  rw [← h, BitVec.extractLsb'_and, hmask, BitVec.and_allOnes]

theorem fieldT_of_and_eq (h : op &&& mask = bits) (hmask : fieldT mask = 0xF#4) : fieldT op = fieldT bits :=
  extractLsb'_of_and_eq h hmask

theorem fieldN_of_and_eq (h : op &&& mask = bits) (hmask : fieldN mask = 0xF#4) : fieldN op = fieldN bits :=
  extractLsb'_of_and_eq h hmask

theorem fieldKK_of_and_eq (h : op &&& mask = bits) (hmask : fieldKK mask = 0xFF#8) : fieldKK op = fieldKK bits :=
  extractLsb'_of_and_eq h hmask

end

/-- Every row fixes the family. -/
theorem fieldT_row_mask (j : Instr) : fieldT j.row.mask = 0xF#4 := by
  cases j <;> simp only [Instr.row] <;> decide

/-- A word of a row decodes to an instruction of that row: the row's mask singles out the fields its format fixes. -/
theorem decodeWord_of_row {op : Word16} {j : Instr} (h : op &&& j.row.mask = j.row.bits) :
    ∃ i, decodeWord op = .ok i ∧ i.row = j.row := by
  have ht : fieldT op = fieldT j.row.bits := fieldT_of_and_eq h (fieldT_row_mask j)
  cases j <;> simp only [Instr.row] at h ht
  case op00E0 | op00EE =>
    obtain rfl : op = _ := (BitVec.and_allOnes (x := op)).symm.trans h
    exact ⟨_, rfl, rfl⟩
  case op1nnn | op2nnn | opAnnn | opBnnn | op3xkk | op4xkk | op6xkk | op7xkk | opCxkk | opDxyn =>
    simp only [decodeWord, ht]
    simp [fieldT, Instr.row]
  case opEx9E | opExA1 | opFx07 | opFx0A | opFx15 | opFx18 | opFx1E | opFx29 | opFx33 | opFx55 | opFx65 =>
    have hkk := fieldKK_of_and_eq h (by decide)
    simp only [decodeWord, decodeE, decodeF, ht, hkk]
    simp [fieldT, fieldKK, Instr.row]
  all_goals
    have hn := fieldN_of_and_eq h (by decide)
    simp only [decodeWord, decode8, ht, hn]
    simp [fieldT, fieldN, Instr.row]

/-! ### Every word is of one row or of none -/

theorem matchesWord_iff {r : Row} {op : Word16} : r.matchesWord op = true ↔ op &&& r.mask = r.bits := beq_iff_eq

theorem row_matchesWord_encode (i : Instr) : i.row.matchesWord (encode i) = true := by
  rw [matchesWord_iff]
  cases i
  case op00E0 => exact Laws.RowMatch.op00E0
  case op00EE => exact Laws.RowMatch.op00EE
  case op1nnn | op2nnn | opAnnn | opBnnn => exact Laws.wordA_and ..
  case op3xkk | op4xkk | op6xkk | op7xkk | opCxkk => exact Laws.wordXK_and ..
  case opDxyn => exact Laws.wordXYN_and ..
  case op5xy0 | op8xy0 | op8xy1 | op8xy2 | op8xy3 | op8xy4 | op8xy5 | op8xy6 | op8xy7 | op8xyE | op9xy0 =>
    exact Laws.wordXYS_and ..
  all_goals exact Laws.wordXS_and ..

/-- The map lists the row of every instruction, since a row does not depend on the operands. -/
theorem row_mem_opcodeMap (i : Instr) : i.row ∈ opcodeMap := by
  cases i <;> simp [opcodeMap, Instr.row]

/-- A word that matches a row of the map decodes, to an instruction of that row. -/
theorem decodeWord_of_matchesWord {r : Row} {op : Word16} (hr : r ∈ opcodeMap) (h : r.matchesWord op = true) :
    ∃ i, decodeWord op = .ok i ∧ i.row = r := by
  obtain ⟨j, -, rfl⟩ := List.mem_map.mp hr
  exact decodeWord_of_row (matchesWord_iff.mp h)

/-- Settles O3: a word matches a row exactly when it decodes to an instruction of that row. -/
theorem everyWordIsOneInstructionOrInvalid : Obligations.EveryWordIsOneInstructionOrInvalid := by
  unfold Obligations.EveryWordIsOneInstructionOrInvalid
  refine ⟨rfl, fun op => ?one, fun op r r' hr hr' h h' => ?unique⟩
  case one =>
    cases hd : decodeWord op with
    | ok i =>
      refine .inl ⟨i, rfl, row_mem_opcodeMap i, ?_⟩
      rw [← encode_of_decodeWord hd]
      exact row_matchesWord_encode i
    | error e =>
      refine .inr ⟨by rw [error_eq_invalid hd], fun r hr => Bool.eq_false_iff.mpr fun h => ?_⟩
      obtain ⟨i, hi, -⟩ := decodeWord_of_matchesWord hr h
      cases hd.symm.trans hi
  case unique =>
    obtain ⟨i, hi, rfl⟩ := decodeWord_of_matchesWord hr h
    obtain ⟨i', hi', rfl⟩ := decodeWord_of_matchesWord hr' h'
    rw [Except.ok.inj (hi.symm.trans hi')]

/-! ### The rejected words, family by family -/

theorem toNat_fieldT (op : Word16) : (fieldT op).toNat = op.toNat / 4096 := by
  rw [fieldT, toNat_field]
  omega

theorem toNat_fieldN (op : Word16) : (fieldN op).toNat = op.toNat % 16 := by
  rw [fieldN, toNat_field]
  omega

theorem toNat_fieldKK (op : Word16) : (fieldKK op).toNat = op.toNat % 256 := by
  rw [fieldKK, toNat_field]
  omega

theorem decode0_eq_error {op : Word16} :
    decode0 op = .error (.invalid op) ↔ op.toNat ≠ 0x00E0 ∧ op.toNat ≠ 0x00EE := by
  unfold decode0
  split
  · simp_all
  · split <;> simp_all [BitVec.toNat_eq]

theorem decode8_eq_error {op : Word16} :
    decode8 op = .error (.invalid op) ↔ op.toNat % 16 ∈ [8, 9, 0xA, 0xB, 0xC, 0xD, 0xF] := by
  rw [← toNat_fieldN]
  unfold decode8
  split
  case h_10 =>
    simp only [List.mem_cons, List.not_mem_nil, or_false, true_iff, imp_false] at *
    bv_omega
  all_goals simp [*]

theorem decodeE_eq_error {op : Word16} :
    decodeE op = .error (.invalid op) ↔ op.toNat % 256 ∉ [0x9E, 0xA1] := by
  rw [← toNat_fieldKK]
  unfold decodeE
  split
  case h_3 =>
    simp only [List.mem_cons, List.not_mem_nil, or_false, true_iff, imp_false] at *
    bv_omega
  all_goals simp [*]

theorem decodeF_eq_error {op : Word16} :
    decodeF op = .error (.invalid op) ↔
      op.toNat % 256 ∉ [0x07, 0x0A, 0x15, 0x18, 0x1E, 0x29, 0x33, 0x55, 0x65] := by
  rw [← toNat_fieldKK]
  unfold decodeF
  split
  case h_10 =>
    simp only [List.mem_cons, List.not_mem_nil, or_false, true_iff, imp_false] at *
    bv_omega
  all_goals simp [*]

/-- Families 5 and 9 fix the low nibble. -/
theorem ite_fieldN_eq_error {op : Word16} {i : Instr} :
    (if fieldN op = 0#4 then .ok i else .error (.invalid op) : Except DecodeError Instr) = .error (.invalid op) ↔
      op.toNat % 16 ≠ 0 := by
  rw [← toNat_fieldN]
  split
  · simp [*]
  · simp only [true_iff]
    bv_omega

/-- Settles O4: the family picks one line of the table. -/
theorem rejectedWordsAreTheListedOnes : Obligations.RejectedWordsAreTheListedOnes := by
  unfold Obligations.RejectedWordsAreTheListedOnes
  intro op
  simp only [← toNat_fieldT]
  unfold decodeWord
  split
  case h_1 ht => simp [ht, decode0_eq_error]
  case h_6 ht | h_10 ht => simp only [ite_fieldN_eq_error]; simp [ht]
  case h_9 ht => simp [ht, decode8_eq_error]
  case h_15 ht => simp [ht, decodeE_eq_error]
  case h_16 ht => simp [ht, decodeF_eq_error]
  case h_17 =>
    exfalso
    simp only [imp_false] at *
    bv_omega
  all_goals simp [*]

/-- Settles O5: each word's fields are computed and looked up. -/
theorem sampleWordsDecodeAsTheSpecReadsThem : Obligations.SampleWordsDecodeAsTheSpecReadsThem := by
  unfold Obligations.SampleWordsDecodeAsTheSpecReadsThem
  decide

end Sys2Proof

/-! ## Control transfer, the faults of instructions and the step (rules R121 to R125, R231, R232, R250 to R264, R304) -/

namespace Sys2Proof.Machine

/-! ### What the branching instructions answer -/

/-- 2nnn finds a free slot, takes it and jumps, or faults. -/
theorem exec_op2nnn_cases (nnn : Addr12) (s : State) :
    (s.sp.val + 2 ≤ 64 ∧ ∃ hk : s.sp.val / 2 < Config.stackDepth, ∃ hsp : s.sp.val + 2 < Config.spLimit + 1,
      exec (.op2nnn nnn) s = .next { s with
        stack := s.stack.set (s.sp.val / 2) s.pc hk, sp := ⟨s.sp.val + 2, hsp⟩, pc := addrTarget nnn }) ∨
    (64 < s.sp.val + 2 ∧ exec (.op2nnn nnn) s = .fault (.stackOverflow (encode (.op2nnn nnn)))) := by
  change (_ ∧ ∃ hk hsp, exec2nnn nnn s = _) ∨ (_ ∧ exec2nnn nnn s = _)
  unfold exec2nnn
  obtain ⟨hk, hsp, hpush⟩ | ⟨hfull, hpush⟩ := pushReturn_cases s s.pc
  · exact .inl ⟨Nat.le_of_lt_succ hsp, hk, hsp, by rw [hpush]; rfl⟩
  · exact .inr ⟨hfull, by rw [hpush]; rfl⟩

/-- 00EE pops an address and continues after it, or faults. -/
theorem exec_op00EE_cases (s : State) :
    (2 ≤ s.sp.val ∧ ∃ hk : (s.sp.val - 2) / 2 < Config.stackDepth, ∃ hsp : s.sp.val - 2 < Config.spLimit + 1,
      exec .op00EE s = .next { s with sp := ⟨s.sp.val - 2, hsp⟩, pc := s.stack[(s.sp.val - 2) / 2] + 2 }) ∨
    (s.sp.val < 2 ∧ exec .op00EE s = .fault (.stackUnderflow (encode .op00EE))) := by
  change (_ ∧ ∃ hk hsp, exec00EE s = _) ∨ (_ ∧ exec00EE s = _)
  unfold exec00EE
  obtain ⟨hle, hk, hsp, hpop⟩ | ⟨hempty, hpop⟩ := popReturn_cases s
  · exact .inl ⟨hle, hk, hsp, by rw [hpop]; rfl⟩
  · exact .inr ⟨hempty, by rw [hpop]; rfl⟩

theorem exec_opEx9E_of_le {s : State} {x : Reg} (h : (getReg s x).toNat ≤ 15) :
    exec (.opEx9E x) s = .next (skipIf (s.keys.getLsbD (getReg s x).toNat) s) := by
  obtain ⟨k, hk, hn⟩ := keyIndex_of_le h
  change execEx9E x s = _
  simp only [execEx9E, hk, keyHeld, hn]

theorem exec_opEx9E_of_gt {s : State} {x : Reg} (h : (getReg s x).toNat > 15) :
    exec (.opEx9E x) s = .fault (.keyIndexOutOfRange (encode (.opEx9E x))) := by
  change execEx9E x s = _
  simp only [execEx9E, keyIndex_of_gt h, raise]

theorem exec_opExA1_of_le {s : State} {x : Reg} (h : (getReg s x).toNat ≤ 15) :
    exec (.opExA1 x) s = .next (skipIf (!s.keys.getLsbD (getReg s x).toNat) s) := by
  obtain ⟨k, hk, hn⟩ := keyIndex_of_le h
  change execExA1 x s = _
  simp only [execExA1, hk, keyHeld, hn]

theorem exec_opExA1_of_gt {s : State} {x : Reg} (h : (getReg s x).toNat > 15) :
    exec (.opExA1 x) s = .fault (.keyIndexOutOfRange (encode (.opExA1 x))) := by
  change execExA1 x s = _
  simp only [execExA1, keyIndex_of_gt h, raise]

/-- Fx0A always completes. -/
theorem exists_exec_opFx0A_eq_next (x : Reg) (s : State) : ∃ t, exec (.opFx0A x) s = .next t := by
  cases hl : s.kw.latched <;> by_cases hk : s.keys = 0
  · exact ⟨_, exec_opFx0A_of_unlatched_of_no_key x hl hk⟩
  · exact ⟨_, exec_opFx0A_of_unlatched_of_key x hl hk⟩
  · exact ⟨_, exec_opFx0A_of_latched_of_no_key x hl hk⟩
  · exact ⟨_, exec_opFx0A_of_latched_of_key x hl hk⟩

/-! ### Calls and returns -/

/-- The frame of a call and of a return: only the stack, its pointer and `pc` may differ. -/
def SameExceptStackAndPc (s t : State) : Prop :=
  SameRegsExcept [] s t ∧ SameMem s t ∧ t.i = s.i ∧ SameTimers s t ∧ SameKeypad s t ∧ SameRandom s t

theorem sameExceptStackAndPc_update (s : State) (sp : Fin (Config.spLimit + 1))
    (stack : Vector Word16 Config.stackDepth) (pc : Word16) :
    SameExceptStackAndPc s { s with sp := sp, stack := stack, pc := pc } :=
  ⟨fun _ _ => rfl, fun _ => rfl, rfl, ⟨rfl, rfl⟩, ⟨rfl, rfl⟩, ⟨rfl, rfl⟩⟩

/-- Settles O14: with `SP = 2k` the free slot is slot `k`. -/
theorem callPushesItsAddressAndJumps : Obligations.CallPushesItsAddressAndJumps := by
  unfold Obligations.CallPushesItsAddressAndJumps
  intro s nnn
  obtain ⟨hfree, hk, hsp, hexec⟩ | ⟨hfull, hexec⟩ := exec_op2nnn_cases nnn s
  · refine ⟨fun k hsk => ?_, fun hfull => absurd hfree (by omega)⟩
    have hslot : s.sp.val / 2 = k.val := by omega
    refine ⟨_, hexec, ?pushed, fun j hj => ?kept, ?sp, toNat_addrTarget nnn, sameExceptStackAndPc_update s _ _ _⟩
    case pushed => simp only [hslot, Vector.getElem_set_self]
    case kept =>
      have hne : k.val ≠ j.val := fun h => hj (Fin.ext h.symm)
      simp only [hslot, Vector.getElem_set_ne _ _ hne]
    case sp => exact congrArg (· + 2) hsk
  · refine ⟨fun k hsk => absurd k.isLt ?_, fun _ => hexec⟩
    simp only [Config.stackDepth]
    omega

/-- Settles O15: with `SP = 2k + 2` the newest address is in slot `k`. -/
theorem returnContinuesAfterTheCall : Obligations.ReturnContinuesAfterTheCall := by
  unfold Obligations.ReturnContinuesAfterTheCall
  intro s
  obtain ⟨hle, hk, hsp, hexec⟩ | ⟨hempty, hexec⟩ := exec_op00EE_cases s
  · refine ⟨fun k hsk => ?_, fun hempty => absurd hle (by omega)⟩
    have hslot : (s.sp.val - 2) / 2 = k.val := by omega
    refine ⟨_, hexec, ?sp, ?pc, rfl, sameExceptStackAndPc_update s _ _ _⟩
    case sp => exact Nat.sub_eq_of_eq_add hsk
    case pc => simp only [hslot]
  · exact ⟨fun k hsk => absurd hempty (by omega), fun _ => hexec⟩

/-- A return in a state with the stack and `SP` a call left goes on after the call. -/
theorem return_undoes_call {s t u : State} {nnn : Addr12} (hs : SpEven s) (h : exec (.op2nnn nnn) s = .next t)
    (hsp : u.sp = t.sp) (hstack : u.stack = t.stack) :
    ∃ w, exec .op00EE u = .next w ∧ w.pc = s.pc + 2 ∧ w.sp = s.sp := by
  obtain ⟨k, hk, -, -, hpush, htsp⟩ := exec_op2nnn_eq_next h
  have husp : u.sp.val = 2 * k.val + 2 := by
    rw [hsp, htsp]
    omega
  obtain ⟨w, hw, hwsp, hwpc, -⟩ := (returnContinuesAfterTheCall u).1 k husp
  refine ⟨w, hw, ?_, Fin.ext ?_⟩
  · rw [hwpc]
    simp only [hstack, hpush, Vector.getElem_set_self]
  · rw [hwsp]
    omega

/-- Calls made with `j` addresses on the stack put their sites above those, which stay. -/
theorem callAll_spec (calls : List (Word16 × Addr12)) {s : State} {j : Nat} (hsp : s.sp.val = 2 * j)
    (hfit : j + calls.length ≤ Config.stackDepth) :
    ∃ t, callAll calls s = .next t ∧ t.sp.val = 2 * (j + calls.length) ∧
      (∀ (k : Nat) (hd : k < Config.stackDepth), k < j → t.stack[k] = s.stack[k]) ∧
      ∀ (k : Nat) (hk : k < calls.length) (hd : j + k < Config.stackDepth), t.stack[j + k] = calls[k].1 := by
  induction calls generalizing s j with
  | nil => exact ⟨s, rfl, hsp, fun _ _ _ => rfl, fun k hk => absurd hk (Nat.not_lt_zero k)⟩
  | cons call rest ih =>
    obtain ⟨site, nnn⟩ := call
    rw [List.length_cons] at hfit
    have hj : j < Config.stackDepth := by omega
    obtain ⟨t, ht, hsite, hother, htsp, -⟩ := (callPushesItsAddressAndJumps (setPc s site) nnn).1 ⟨j, hj⟩ hsp
    obtain ⟨u, hu, husp, hbelow, habove⟩ := ih (s := t) (j := j + 1) htsp (by omega)
    refine ⟨u, ?_, ?_, fun k hd hk => ?_, fun k hk hd => ?_⟩
    · simp only [callAll, ht, hu]
    · rw [husp, List.length_cons]
      omega
    · rw [hbelow k hd (by omega)]
      exact hother ⟨k, hd⟩ (Fin.ne_of_val_ne (Nat.ne_of_lt hk))
    · cases k with
      | zero =>
        rw [List.getElem_cons_zero]
        exact (hbelow j hj (Nat.lt_succ_self j)).trans hsite
      | succ k =>
        have hslot : j + (k + 1) = j + 1 + k := by omega
        simp only [hslot, List.getElem_cons_succ]
        exact habove k (Nat.lt_of_succ_lt_succ hk) (by omega)

/-- Settles O16: the second half starts with no address on the stack. -/
theorem callsNestAndReturnsUndoThem : Obligations.CallsNestAndReturnsUndoThem := by
  unfold Obligations.CallsNestAndReturnsUndoThem
  refine ⟨fun s t u nnn => return_undoes_call, fun calls s hsp hfit => ?_⟩
  obtain ⟨t, ht, htsp, -, hslots⟩ := callAll_spec calls (j := 0) hsp (by omega)
  refine ⟨t, ht, by omega, fun k hk hd => ?_⟩
  simpa only [Nat.zero_add] using hslots k hk (by omega)

/-! ### Key skips -/

/-- Settles O20: up to 15 the whole register is the key. -/
theorem keySkipsTestTheHeldBit : Obligations.KeySkipsTestTheHeldBit := by
  unfold Obligations.KeySkipsTestTheHeldBit
  intro s x
  refine ⟨fun hle => ⟨⟨_, exec_opEx9E_of_le hle, rfl, onlyPc_skipIf _ s⟩,
    ⟨_, exec_opExA1_of_le hle, ?_, onlyPc_skipIf _ s⟩⟩, fun hgt => ⟨exec_opEx9E_of_gt hgt, exec_opExA1_of_gt hgt⟩⟩
  cases s.keys.getLsbD (getReg s x).toNat <;> rfl

/-! ### The faults of instructions -/

theorem loadFault_of_in_range {op : Word16} {count : Nat} {s : State}
    (h : count = 0 ∨ s.i.toNat + (count - 1) ≤ 0xFFF) : loadFault op count s = none := by
  rw [loadFault_eq, if_pos h]

theorem loadFault_of_out_of_range {op : Word16} {count : Nat} {s : State} (hpos : 0 < count)
    (h : 0xFFF < s.i.toNat + (count - 1)) : loadFault op count s = some (.addressOutOfRange op) := by
  rw [loadFault_eq, if_neg (by omega)]

theorem storeFault_of_in_range {op : Word16} {count : Nat} {s : State} (hfont : 0x050 ≤ s.i.toNat)
    (h : s.i.toNat + (count - 1) ≤ 0xFFF) : storeFault op count s = none := by
  rw [storeFault_eq, if_pos (.inr h), if_neg (Nat.not_lt.mpr hfont)]

theorem storeFault_of_font {op : Word16} {count : Nat} {s : State} (hfont : s.i.toNat < 0x050)
    (h : s.i.toNat + (count - 1) ≤ 0xFFF) : storeFault op count s = some (.fontWrite op) := by
  rw [storeFault_eq, if_pos (.inr h), if_pos hfont]

theorem storeFault_of_out_of_range {op : Word16} {count : Nat} {s : State} (hpos : 0 < count)
    (h : 0xFFF < s.i.toNat + (count - 1)) : storeFault op count s = some (.addressOutOfRange op) := by
  rw [storeFault_eq, if_neg (by omega)]

/-- The faults of rule R262, each by its condition on `SP`, `I` or a register. -/
inductive ExecFault (s : State) : Instr → Fault → Prop
  | callFull (nnn : Addr12) (h : 64 < s.sp.val + 2) :
      ExecFault s (.op2nnn nnn) (.stackOverflow (encode (.op2nnn nnn)))
  | returnEmpty (h : s.sp.val < 2) : ExecFault s .op00EE (.stackUnderflow (encode .op00EE))
  | drawOutside (x y : Reg) (n : Nibble) (hn : 0 < n.toNat) (h : 0xFFF < s.i.toNat + (n.toNat - 1)) :
      ExecFault s (.opDxyn x y n) (.addressOutOfRange (encode (.opDxyn x y n)))
  | loadOutside (x : Reg) (h : 0xFFF < s.i.toNat + x.toNat) :
      ExecFault s (.opFx65 x) (.addressOutOfRange (encode (.opFx65 x)))
  | digitsOutside (x : Reg) (h : 0xFFF < s.i.toNat + 2) :
      ExecFault s (.opFx33 x) (.addressOutOfRange (encode (.opFx33 x)))
  | digitsInFont (x : Reg) (h : s.i.toNat < 0x050) : ExecFault s (.opFx33 x) (.fontWrite (encode (.opFx33 x)))
  | storeOutside (x : Reg) (h : 0xFFF < s.i.toNat + x.toNat) :
      ExecFault s (.opFx55 x) (.addressOutOfRange (encode (.opFx55 x)))
  | storeInFont (x : Reg) (h : s.i.toNat < 0x050) : ExecFault s (.opFx55 x) (.fontWrite (encode (.opFx55 x)))
  | skipHeldBadKey (x : Reg) (h : 15 < (getReg s x).toNat) :
      ExecFault s (.opEx9E x) (.keyIndexOutOfRange (encode (.opEx9E x)))
  | skipFreeBadKey (x : Reg) (h : 15 < (getReg s x).toNat) :
      ExecFault s (.opExA1 x) (.keyIndexOutOfRange (encode (.opExA1 x)))

theorem exec_eq_fault_of_execFault {i : Instr} {s : State} {f : Fault} (h : ExecFault s i f) : exec i s = .fault f := by
  cases h with
  | callFull nnn h =>
    obtain ⟨hfree, -⟩ | ⟨-, hexec⟩ := exec_op2nnn_cases nnn s
    · omega
    · exact hexec
  | returnEmpty h =>
    obtain ⟨hle, -⟩ | ⟨-, hexec⟩ := exec_op00EE_cases s
    · omega
    · exact hexec
  | drawOutside x y n hn h => exact guarded_eq_fault.mpr (loadFault_of_out_of_range hn h)
  | loadOutside x h => exact guarded_eq_fault.mpr (loadFault_of_out_of_range (Nat.succ_pos _) h)
  | digitsOutside x h => exact guarded_eq_fault.mpr (storeFault_of_out_of_range (by decide) h)
  | digitsInFont x h => exact guarded_eq_fault.mpr (storeFault_of_font h (by omega))
  | storeOutside x h => exact guarded_eq_fault.mpr (storeFault_of_out_of_range (Nat.succ_pos _) h)
  | storeInFont x h =>
    have hx : x.toNat < 16 := x.isLt
    exact guarded_eq_fault.mpr (storeFault_of_font h (by rw [blockLength]; omega))
  | skipHeldBadKey x h => exact exec_opEx9E_of_gt h
  | skipFreeBadKey x h => exact exec_opExA1_of_gt h

/-- The fault of a store that faults. -/
theorem storeFault_eq_some {op : Word16} {count : Nat} {s : State} {f : Fault} (h : storeFault op count s = some f) :
    (0xFFF < s.i.toNat + (count - 1) ∧ f = .addressOutOfRange op) ∨ (s.i.toNat < 0x050 ∧ f = .fontWrite op) := by
  rw [storeFault_eq] at h
  split at h
  · split at h
    · exact .inr ⟨‹_›, (Option.some.inj h).symm⟩
    · cases h
  · exact .inl ⟨by omega, (Option.some.inj h).symm⟩

theorem loadFault_eq_some {op : Word16} {count : Nat} {s : State} {f : Fault} (h : loadFault op count s = some f) :
    0 < count ∧ 0xFFF < s.i.toNat + (count - 1) ∧ f = .addressOutOfRange op := by
  rw [loadFault_eq] at h
  split at h
  · cases h
  · exact ⟨by omega, by omega, (Option.some.inj h).symm⟩

theorem execFault_of_exec_eq_fault {i : Instr} {s : State} {f : Fault} (h : exec i s = .fault f) : ExecFault s i f := by
  cases i
  case op2nnn nnn =>
    obtain ⟨_, _, _, hexec⟩ | ⟨hfull, hexec⟩ := exec_op2nnn_cases nnn s <;> cases hexec.symm.trans h
    exact .callFull nnn hfull
  case op00EE =>
    obtain ⟨_, _, _, hexec⟩ | ⟨hempty, hexec⟩ := exec_op00EE_cases s <;> cases hexec.symm.trans h
    exact .returnEmpty hempty
  case opDxyn x y n =>
    obtain ⟨hn, hout, rfl⟩ := loadFault_eq_some (guarded_eq_fault.mp h)
    exact .drawOutside x y n hn hout
  case opFx65 x =>
    obtain ⟨-, hout, rfl⟩ := loadFault_eq_some (guarded_eq_fault.mp h)
    exact .loadOutside x hout
  case opFx33 x =>
    obtain ⟨hout, rfl⟩ | ⟨hfont, rfl⟩ := storeFault_eq_some (guarded_eq_fault.mp h)
    · exact .digitsOutside x hout
    · exact .digitsInFont x hfont
  case opFx55 x =>
    obtain ⟨hout, rfl⟩ | ⟨hfont, rfl⟩ := storeFault_eq_some (guarded_eq_fault.mp h)
    · exact .storeOutside x hout
    · exact .storeInFont x hfont
  case opEx9E x =>
    obtain hle | hgt := le_or_gt (getReg s x).toNat 15
    · cases (exec_opEx9E_of_le hle).symm.trans h
    · cases (exec_opEx9E_of_gt hgt).symm.trans h
      exact .skipHeldBadKey x hgt
  case opExA1 x =>
    obtain hle | hgt := le_or_gt (getReg s x).toNat 15
    · cases (exec_opExA1_of_le hle).symm.trans h
    · cases (exec_opExA1_of_gt hgt).symm.trans h
      exact .skipFreeBadKey x hgt
  case opFx0A x =>
    obtain ⟨t, ht⟩ := exists_exec_opFx0A_eq_next x s
    cases ht.symm.trans h
  all_goals cases h

/-- Every fault of an instruction is one of the list, and each of the list is raised. -/
theorem exec_eq_fault_iff {i : Instr} {s : State} {f : Fault} : exec i s = .fault f ↔ ExecFault s i f :=
  ⟨execFault_of_exec_eq_fault, exec_eq_fault_of_execFault⟩

/-- Settles O10: with `SP` even, full is 64 and empty is 0. -/
theorem executionFaultsAreExactlyTheListedOnes : Obligations.ExecutionFaultsAreExactlyTheListedOnes := by
  unfold Obligations.ExecutionFaultsAreExactlyTheListedOnes
  intro i s f hs
  have hle : s.sp.val ≤ 64 := Nat.le_of_lt_succ s.sp.isLt
  unfold SpEven at hs
  rw [exec_eq_fault_iff]
  constructor
  · intro h
    cases h with
    | callFull nnn h => exact .inl ⟨nnn, rfl, by omega, rfl⟩
    | returnEmpty h => exact .inr (.inl ⟨rfl, by omega, rfl⟩)
    | drawOutside x y n hn h => exact .inr (.inr (.inl ⟨x, y, n, rfl, hn, by omega, rfl⟩))
    | loadOutside x h => exact .inr (.inr (.inr (.inl ⟨x, rfl, h, rfl⟩)))
    | digitsOutside x h => exact .inr (.inr (.inr (.inr (.inl ⟨x, rfl, h, rfl⟩))))
    | digitsInFont x h => exact .inr (.inr (.inr (.inr (.inr (.inl ⟨x, rfl, h, rfl⟩)))))
    | storeOutside x h => exact .inr (.inr (.inr (.inr (.inr (.inr (.inl ⟨x, rfl, h, rfl⟩))))))
    | storeInFont x h => exact .inr (.inr (.inr (.inr (.inr (.inr (.inr (.inl ⟨x, rfl, h, rfl⟩)))))))
    | skipHeldBadKey x h => exact .inr (.inr (.inr (.inr (.inr (.inr (.inr (.inr ⟨x, .inl rfl, h, rfl⟩)))))))
    | skipFreeBadKey x h => exact .inr (.inr (.inr (.inr (.inr (.inr (.inr (.inr ⟨x, .inr rfl, h, rfl⟩)))))))
  · rintro (⟨nnn, rfl, h, rfl⟩ | ⟨rfl, h, rfl⟩ | ⟨x, y, n, rfl, hn, h, rfl⟩ | ⟨x, rfl, h, rfl⟩ | ⟨x, rfl, h, rfl⟩ |
      ⟨x, rfl, h, rfl⟩ | ⟨x, rfl, h, rfl⟩ | ⟨x, rfl, h, rfl⟩ | ⟨x, rfl | rfl, h, rfl⟩)
    · exact .callFull nnn (by omega)
    · exact .returnEmpty (by omega)
    · exact .drawOutside x y n hn (by omega)
    · exact .loadOutside x h
    · exact .digitsOutside x h
    · exact .digitsInFont x h
    · exact .storeOutside x h
    · exact .storeInFont x h
    · exact .skipHeldBadKey x h
    · exact .skipFreeBadKey x h

/-- Settles O9: the two stack instructions, the key skips, the key wait and the guarded ones complete or fault. -/
theorem noInstructionIsRefused : Obligations.NoInstructionIsRefused := by
  unfold Obligations.NoInstructionIsRefused
  intro i s r h
  cases i
  case op2nnn nnn =>
    obtain ⟨_, _, _, hexec⟩ | ⟨-, hexec⟩ := exec_op2nnn_cases nnn s <;> cases hexec.symm.trans h
  case op00EE =>
    obtain ⟨_, _, _, hexec⟩ | ⟨-, hexec⟩ := exec_op00EE_cases s <;> cases hexec.symm.trans h
  case opEx9E x =>
    obtain hle | hgt := le_or_gt (getReg s x).toNat 15
    · cases (exec_opEx9E_of_le hle).symm.trans h
    · cases (exec_opEx9E_of_gt hgt).symm.trans h
  case opExA1 x =>
    obtain hle | hgt := le_or_gt (getReg s x).toNat 15
    · cases (exec_opExA1_of_le hle).symm.trans h
    · cases (exec_opExA1_of_gt hgt).symm.trans h
  case opFx0A x =>
    obtain ⟨t, ht⟩ := exists_exec_opFx0A_eq_next x s
    cases ht.symm.trans h
  case opDxyn | opFx33 | opFx55 | opFx65 => exact guarded_ne_refused h
  all_goals cases h

/-! ### The step -/

theorem step_of_fetchInstr_ok {s : State} {i : Instr} (h : fetchInstr s = .ok i) : step s = exec i s := by
  simp only [step, h]

theorem step_of_fetchInstr_error {s : State} {f : Fault} (h : fetchInstr s = .error f) : step s = .fault f := by
  simp only [step, h, raise]

/-- A step faults in the fetch or in the instruction. -/
theorem step_eq_fault {s : State} {f : Fault} :
    step s = .fault f ↔ fetchInstr s = .error f ∨ ∃ i, fetchInstr s = .ok i ∧ ExecFault s i f := by
  cases hf : fetchInstr s with
  | ok i => simp [step_of_fetchInstr_ok hf, exec_eq_fault_iff]
  | error e => simp [step_of_fetchInstr_error hf]

/-- Settles O7: the range check comes before the fetch. -/
theorem fetchPastMemoryFaults : Obligations.FetchPastMemoryFaults := by
  unfold Obligations.FetchPastMemoryFaults
  intro s h
  have hr : fetchInRange s = false := decide_eq_false (by simp only [Config.lastAddr]; omega)
  exact step_of_fetchInstr_error (by simp [fetchInstr, hr])

/-- Placing bytes stores them at a `pc` from which they can be fetched. -/
theorem placeAtPc_eq_setMem (s : State) (bytes : List Byte) :
    ∃ u : State, u.pc.toNat ≤ 0xFFE ∧ placeAtPc s bytes = setMem u (memWriteBytes s.mem u.pc.toNat bytes) := by
  unfold placeAtPc
  cases hr : fetchInRange s with
  | true => exact ⟨s, Nat.le_of_succ_le_succ (of_decide_eq_true hr), rfl⟩
  | false => exact ⟨_, show (BitVec.ofNat 16 Config.programBase).toNat ≤ 0xFFE by decide, rfl⟩

theorem tableBytes_toNat (op : Word16) : tableBytes 16 op.toNat = bytesOfWord op := by
  rw [tableBytes, Nat.mod_eq_of_lt op.isLt, BitVec.ofNat_toNat, BitVec.setWidth_eq]

/-- The two bytes of a word are read back as the word. -/
theorem memReadWord_memWriteBytes {m : List Host.Cell} (hm : memWf m = true) {a : Nat} (ha : a ≤ 0xFFE) (op : Word16) :
    memReadWord (memWriteBytes m a (bytesOfWord op)) a = op := by
  have hlen : (bytesOfWord op).length = 2 := rfl
  have hhi := memRead_memWriteBytes_inside hm (a := a) (k := 0) (bs := bytesOfWord op) (by omega)
    (by simp only [Config.memSize]; omega)
  have hlo := memRead_memWriteBytes_inside hm (a := a) (k := 1) (bs := bytesOfWord op) (by omega)
    (by simp only [Config.memSize]; omega)
  rw [Nat.add_zero] at hhi
  rw [memReadWord, hlo, hhi]
  exact wordOfBytes_bytesOfWord op

/-- Settles O8: the word fetched is the one stored, and it decodes to what was encoded. -/
theorem placedWordIsTheNextOneRun : Obligations.PlacedWordIsTheNextOneRun := by
  unfold Obligations.PlacedWordIsTheNextOneRun
  intro s i hm
  obtain ⟨u, hpc, hplace⟩ := placeAtPc_eq_setMem s (bytesOfWord (encode i))
  rw [State.withFetchWord, tableBytes_toNat, hplace]
  refine step_of_fetchInstr_ok (fetchInstr_eq_ok.mpr ⟨hpc, ?_⟩)
  rw [setMem_mem, setMem_pc, memReadWord_memWriteBytes hm hpc]
  exact decodeWord_encode i

/-- A jump to its own address gives the state back. -/
theorem step_self_jump {s : State} {nnn : Addr12} (hpc : s.pc.toNat ≤ 0xFFE) (hself : s.pc.toNat = nnn.toNat)
    (hd : decodeWord (memReadWord s.mem s.pc.toNat) = .ok (.op1nnn nnn)) : step s = .next s := by
  have htarget : addrTarget nnn = s.pc := BitVec.eq_of_toNat_eq ((toNat_addrTarget nnn).trans hself.symm)
  rw [step_of_fetchInstr_ok (fetchInstr_eq_ok.mpr ⟨hpc, hd⟩)]
  change exec1nnn nnn s = _
  rw [exec1nnn, htarget]
  rfl

theorem runsSafely_of_step_self {s : State} (h : step s = .next s) : ∀ n, RunsSafely n s
  | 0 => trivial
  | n + 1 => ⟨s, h, runsSafely_of_step_self h n⟩

/-- Settles O17: a step that gives the state back can be repeated any number of times. -/
theorem selfJumpIdlesForEver : Obligations.SelfJumpIdlesForEver := by
  unfold Obligations.SelfJumpIdlesForEver
  intro s nnn hpc hself hd
  have hstep := step_self_jump hpc hself hd
  exact ⟨hstep, runsSafely_of_step_self hstep⟩

/-! ### The STEP port -/

theorem transact_step_of_next {s t : State} {r : Byte} (h : step { s with randIn := [r] } = .next t) :
    transact (.step r) s = ({ t with randIn := s.randIn }, .status 0 0) := by
  rw [transact_step, h, stepReply]

theorem transact_step_of_fault {s : State} {r : Byte} {f : Fault} (h : step { s with randIn := [r] } = .fault f) :
    transact (.step r) s = (s, .status (faultCode f) (faultInfo f)) := by
  rw [transact_step, h, stepReply]

/-- Settles O12: the code and the info are those of the fault. -/
theorem stepReportsItsStatus : Obligations.StepReportsItsStatus := by
  unfold Obligations.StepReportsItsStatus
  intro s r
  refine ⟨fun t h => transact_step_of_next h, ?_, ?_, ?_, ?_, ?_, ?_, ?_⟩
  all_goals
    intro info h
    rw [transact_step_of_fault h]
    rfl

/-- Settles O50: `resetMachine` builds its state from the reset state and the two fields. -/
theorem resetIsTotal : Obligations.ResetIsTotal := fun _ => rfl

/-! ### Faults repeat -/

/-- Agreement on all that a step's fault is decided by: memory, the registers, `I`, `pc` and `SP`. -/
def AgreeOnFaults (s u : State) : Prop :=
  u.mem = s.mem ∧ u.v = s.v ∧ u.i = s.i ∧ u.pc = s.pc ∧ u.sp = s.sp

theorem execFault_congr {s u : State} {i : Instr} {f : Fault} (h : AgreeOnFaults s u) (hf : ExecFault s i f) :
    ExecFault u i f := by
  obtain ⟨-, hv, hi, -, hsp⟩ := h
  have hreg (x : Reg) : getReg u x = getReg s x := by simp only [getReg, hv]
  cases hf with
  | callFull nnn h => exact .callFull nnn (hsp ▸ h)
  | returnEmpty h => exact .returnEmpty (hsp ▸ h)
  | drawOutside x y n hn h => exact .drawOutside x y n hn (hi ▸ h)
  | loadOutside x h => exact .loadOutside x (hi ▸ h)
  | digitsOutside x h => exact .digitsOutside x (hi ▸ h)
  | digitsInFont x h => exact .digitsInFont x (hi ▸ h)
  | storeOutside x h => exact .storeOutside x (hi ▸ h)
  | storeInFont x h => exact .storeInFont x (hi ▸ h)
  | skipHeldBadKey x h => exact .skipHeldBadKey x (hreg x ▸ h)
  | skipFreeBadKey x h => exact .skipFreeBadKey x (hreg x ▸ h)

theorem fetchInstr_congr {s u : State} (hmem : u.mem = s.mem) (hpc : u.pc = s.pc) : fetchInstr u = fetchInstr s := by
  unfold fetchInstr fetchInRange fetchWord
  rw [hmem, hpc]

theorem step_fault_congr {s u : State} {f : Fault} (h : AgreeOnFaults s u) (hf : step s = .fault f) :
    step u = .fault f := by
  have ⟨hmem, _, _, hpc, _⟩ := h
  rw [step_eq_fault] at hf ⊢
  rw [fetchInstr_congr hmem hpc]
  exact hf.imp_right fun ⟨i, hi, hexec⟩ => ⟨i, hi, execFault_congr h hexec⟩

/-- The operations that may come between two steps of a machine that faulted. -/
def BetweenSteps (o : HostOp) : Prop :=
  o = .tick ∨ (∃ k, o = .keyDown k) ∨ (∃ k, o = .keyUp k) ∨ o = .display ∨ o = .beep ∨ ∃ q, o = .step q

section

variable {s u : State} {r : Byte} {f : Fault} (hf : step { s with randIn := [r] } = .fault f)

include hf

/-- A STEP of a state that agrees with the one that faulted reports the same fault, whatever `rand` is. -/
theorem transact_step_of_agree (h : AgreeOnFaults s u) (q : Byte) :
    transact (.step q) u = (u, .status (faultCode f) (faultInfo f)) := by
  have hagree : AgreeOnFaults { s with randIn := [r] } { u with randIn := [q] } := h
  exact transact_step_of_fault (step_fault_congr hagree hf)

theorem agree_transact (h : AgreeOnFaults s u) {o : HostOp} (ho : BetweenSteps o) :
    AgreeOnFaults s (transact o u).1 := by
  obtain rfl | ⟨k, rfl⟩ | ⟨k, rfl⟩ | rfl | rfl | ⟨q, rfl⟩ := ho
  case inr.inr.inr.inr.inr =>
    rw [transact_step_of_agree hf h q]
    exact h
  all_goals exact h

theorem agree_transactAll {os : List HostOp} (h : AgreeOnFaults s u) (hos : ∀ o ∈ os, BetweenSteps o) :
    AgreeOnFaults s (transactAll os u) := by
  induction os generalizing u with
  | nil => exact h
  | cons o os ih =>
    obtain ⟨ho, hrest⟩ := List.forall_mem_cons.mp hos
    exact ih (agree_transact hf h ho) hrest

end

/-- A status other than `Ok` is that of a fault. -/
theorem step_fault_of_status {s s' : State} {r : Byte} {code : Nat} {info : Word16}
    (h : transact (.step r) s = (s', .status code info)) (hcode : code ≠ 0) :
    ∃ f, step { s with randIn := [r] } = .fault f ∧ s' = s ∧ code = faultCode f ∧ info = faultInfo f := by
  cases ho : step { s with randIn := [r] } with
  | next t =>
    cases (transact_step_of_next ho).symm.trans h
    exact absurd rfl hcode
  | fault f =>
    cases (transact_step_of_fault ho).symm.trans h
    exact ⟨f, rfl, rfl, rfl, rfl⟩
  | refused x =>
    rw [transact_step, ho] at h
    cases h

/-- Settles O11: what may come between keeps all that decides the fault, by induction on the operations. -/
theorem faultsChangeNothingAndRepeat : Obligations.FaultsChangeNothingAndRepeat := by
  unfold Obligations.FaultsChangeNothingAndRepeat
  intro s s' r code info h hcode
  obtain ⟨f, hf, rfl, rfl, rfl⟩ := step_fault_of_status h hcode
  refine ⟨rfl, fun q os hos => ?_⟩
  have hagree : AgreeOnFaults s' (transactAll os s') := agree_transactAll hf ⟨rfl, rfl, rfl, rfl, rfl⟩ hos
  rw [transact_step_of_agree hf hagree q]

end Sys2Proof.Machine

/-! ## Subtraction, shifts, register 15, the random byte and the index adder (rules R168 to R172, R180, R192) -/

namespace Sys2Proof.Machine

/-! ### The flag and then the result -/

theorem toNat_noBorrowFlag (a b : Byte) : (noBorrowFlag a b).toNat = if a.toNat ≥ b.toNat then 1 else 0 := by
  simp only [noBorrowFlag, toNat_flagByte, decide_eq_true_eq]

theorem onlyRegsAndPc_flagThenResult (s : State) (x : Reg) (result flag : Byte) :
    OnlyRegsAndPc [x, VF] s (flagThenResult s x result flag) :=
  onlyRegsAndPc_setReg (onlyRegsAndPc_setReg (onlyRegsAndPc_refl _ s) (List.mem_cons_of_mem x List.mem_cons_self) flag)
    List.mem_cons_self result

theorem getReg_advance_flagThenResult_self (s : State) (x : Reg) (result flag : Byte) :
    getReg (advance (flagThenResult s x result flag)) x = result := by
  rw [getReg_advance, getReg_flagThenResult, if_pos rfl]

theorem getReg_advance_flagThenResult_flag (s : State) {x : Reg} (hx : x ≠ VF) (result flag : Byte) :
    getReg (advance (flagThenResult s x result flag)) VF = flag := by
  rw [getReg_advance, getReg_flagThenResult, if_neg hx.symm, if_pos rfl]

/-- Subtraction modulo 256 as rule R168 writes it. -/
theorem toNat_sub_byte (a b : Byte) : (a - b).toNat = (a.toNat + 256 - b.toNat) % 256 := by
  bv_omega

/-- Settles O24: the result is written last, so it stands also for `x = 15`. -/
theorem subtractsSetNotBorrow : Obligations.SubtractsSetNotBorrow := by
  unfold Obligations.SubtractsSetNotBorrow
  intro s x y
  refine ⟨⟨_, rfl, ?_, fun hx => ?_, rfl, onlyRegsAndPc_advance (onlyRegsAndPc_flagThenResult s x _ _)⟩,
    ⟨_, rfl, ?_, fun hx => ?_, rfl, onlyRegsAndPc_advance (onlyRegsAndPc_flagThenResult s x _ _)⟩⟩
  · rw [getReg_advance_flagThenResult_self, toNat_sub_byte]
  · rw [getReg_advance_flagThenResult_flag s hx, toNat_noBorrowFlag]
  · rw [getReg_advance_flagThenResult_self, toNat_sub_byte]
  · rw [getReg_advance_flagThenResult_flag s hx, toNat_noBorrowFlag]

theorem toNat_shiftRight_one (a : Byte) : (a >>> 1).toNat = a.toNat / 2 := by
  rw [BitVec.toNat_ushiftRight, Nat.shiftRight_eq_div_pow, Nat.pow_one]

theorem toNat_shiftLeft_one (a : Byte) : (a <<< 1).toNat = a.toNat * 2 % 256 := by
  rw [BitVec.toNat_shiftLeft, Nat.shiftLeft_eq, Nat.pow_one]

/-- Settles O25: the result is written last, and the meanings do not mention `y`. -/
theorem shiftsSetTheBitShiftedOut : Obligations.ShiftsSetTheBitShiftedOut := by
  unfold Obligations.ShiftsSetTheBitShiftedOut
  intro s x y
  refine ⟨⟨_, rfl, ?_, fun hx => ?_, rfl, onlyRegsAndPc_advance (onlyRegsAndPc_flagThenResult s x _ _)⟩,
    ⟨_, rfl, ?_, fun hx => ?_, rfl, onlyRegsAndPc_advance (onlyRegsAndPc_flagThenResult s x _ _)⟩,
    fun _ => ⟨rfl, rfl⟩⟩
  · rw [getReg_advance_flagThenResult_self, toNat_shiftRight_one]
  · rw [getReg_advance_flagThenResult_flag s hx, toNat_lowBitFlag]
  · rw [getReg_advance_flagThenResult_self, toNat_shiftLeft_one]
  · rw [getReg_advance_flagThenResult_flag s hx, toNat_highBitFlag]

/-! ### Register 15 as an operand -/

/-- What is said of some next state is said of the next state. -/
theorem of_exists_next {o : Host.Outcome State Fault Refusal} {P : State → Prop} {t : State}
    (h : ∃ t, o = .next t ∧ P t) (ht : o = .next t) : P t := by
  obtain ⟨t', ht', hP⟩ := h
  cases ht'.symm.trans ht
  exact hP

theorem getReg_advance_setReg_ne (s : State) {x q : Reg} (h : q ≠ x) (b : Byte) :
    getReg (advance (setReg s x b)) q = getReg s q := by
  rw [getReg_advance, getReg_setReg, if_neg h]

/-- The value each logic instruction leaves in Vx, as a number. -/
theorem toNat_getReg_of_exec_logic {s t : State} {x y : Reg} :
    (exec (.op8xy1 x y) s = .next t → (getReg t x).toNat = (getReg s x).toNat ||| (getReg s y).toNat) ∧
    (exec (.op8xy2 x y) s = .next t → (getReg t x).toNat = (getReg s x).toNat &&& (getReg s y).toNat) ∧
    (exec (.op8xy3 x y) s = .next t → (getReg t x).toNat = (getReg s x).toNat ^^^ (getReg s y).toNat) := by
  refine ⟨fun h => ?_, fun h => ?_, fun h => ?_⟩ <;> cases h <;> rw [getReg_advance_setReg_self]
  · exact BitVec.toNat_or ..
  · exact BitVec.toNat_and ..
  · exact BitVec.toNat_xor ..

/-- The logic instructions and the copy write no flag. -/
theorem toNat_getReg_VF_of_onlyRegsAndPc {s t : State} {x : Reg} (hx : x ≠ VF) (h : OnlyRegsAndPc [x] s t) :
    (getReg t VF).toNat = (getReg s VF).toNat :=
  congrArg BitVec.toNat (h.1 VF fun hmem => hx (List.mem_singleton.mp hmem).symm)

/-- The rows of the table with `x = 15` and another `y`. -/
theorem registerFifteen_as_x (s t : State) (y : Reg) :
    let F := (getReg s VF).toNat
    let b := (getReg s y).toNat
    (exec (.op8xy0 VF y) s = .next t → (getReg t VF).toNat = b) ∧
    (exec (.op8xy1 VF y) s = .next t → (getReg t VF).toNat = F ||| b) ∧
    (exec (.op8xy2 VF y) s = .next t → (getReg t VF).toNat = F &&& b) ∧
    (exec (.op8xy3 VF y) s = .next t → (getReg t VF).toNat = F ^^^ b) ∧
    (exec (.op8xy4 VF y) s = .next t → (getReg t VF).toNat = if F + b > 255 then 1 else 0) ∧
    (exec (.op8xy5 VF y) s = .next t → (getReg t VF).toNat = (F + 256 - b) % 256) ∧
    (exec (.op8xy6 VF y) s = .next t → (getReg t VF).toNat = F / 2) ∧
    (exec (.op8xy7 VF y) s = .next t → (getReg t VF).toNat = (b + 256 - F) % 256) ∧
    (exec (.op8xyE VF y) s = .next t → (getReg t VF).toNat = 2 * F % 256) := by
  obtain ⟨-, -, hcopy⟩ := loadAddAndCopyWriteOneRegister s VF y 0
  obtain ⟨hor, hand, hxor⟩ := toNat_getReg_of_exec_logic (s := s) (t := t) (x := VF) (y := y)
  obtain ⟨hsub, hsubn⟩ := subtractsSetNotBorrow s VF y
  obtain ⟨hshr, hshl, -⟩ := shiftsSetTheBitShiftedOut s VF y
  refine ⟨fun h => congrArg BitVec.toNat (of_exists_next hcopy h).1, hor, hand, hxor,
    fun h => (of_exists_next (addSetsTheCarry s VF y) h).1, fun h => (of_exists_next hsub h).1,
    fun h => (of_exists_next hshr h).1, fun h => (of_exists_next hsubn h).1, fun h => ?_⟩
  rw [Nat.mul_comm]
  exact (of_exists_next hshl h).1

/-- The rows of the table with `y = 15` and another `x`. -/
theorem registerFifteen_as_y (s t : State) {x : Reg} (hx : x ≠ VF) :
    let F := (getReg s VF).toNat
    let a := (getReg s x).toNat
    (exec (.op8xy0 x VF) s = .next t → (getReg t x).toNat = F ∧ (getReg t VF).toNat = F) ∧
    (exec (.op8xy1 x VF) s = .next t → (getReg t x).toNat = a ||| F ∧ (getReg t VF).toNat = F) ∧
    (exec (.op8xy2 x VF) s = .next t → (getReg t x).toNat = a &&& F ∧ (getReg t VF).toNat = F) ∧
    (exec (.op8xy3 x VF) s = .next t → (getReg t x).toNat = a ^^^ F ∧ (getReg t VF).toNat = F) ∧
    (exec (.op8xy4 x VF) s = .next t →
      (getReg t x).toNat = (a + F) % 256 ∧ (getReg t VF).toNat = if a + F > 255 then 1 else 0) ∧
    (exec (.op8xy5 x VF) s = .next t →
      (getReg t x).toNat = (a + 256 - F) % 256 ∧ (getReg t VF).toNat = if a ≥ F then 1 else 0) ∧
    (exec (.op8xy6 x VF) s = .next t → (getReg t x).toNat = a / 2 ∧ (getReg t VF).toNat = a % 2) ∧
    (exec (.op8xy7 x VF) s = .next t →
      (getReg t x).toNat = (F + 256 - a) % 256 ∧ (getReg t VF).toNat = if F ≥ a then 1 else 0) ∧
    (exec (.op8xyE x VF) s = .next t → (getReg t x).toNat = 2 * a % 256 ∧ (getReg t VF).toNat = a / 128) := by
  obtain ⟨-, -, hcopy⟩ := loadAddAndCopyWriteOneRegister s x VF 0
  obtain ⟨hor, hand, hxor⟩ := toNat_getReg_of_exec_logic (s := s) (t := t) (x := x) (y := VF)
  obtain ⟨horF, handF, hxorF⟩ := logicWorksBitByBit s x VF
  obtain ⟨hsub, hsubn⟩ := subtractsSetNotBorrow s x VF
  obtain ⟨hshr, hshl, -⟩ := shiftsSetTheBitShiftedOut s x VF
  refine ⟨fun h => ?copy, fun h => ⟨hor h, ?or⟩, fun h => ⟨hand h, ?and⟩, fun h => ⟨hxor h, ?xor⟩, fun h => ?add,
    fun h => ?sub, fun h => ?shr, fun h => ?subn, fun h => ?shl⟩
  case copy =>
    obtain ⟨hval, -, hframe⟩ := of_exists_next hcopy h
    exact ⟨congrArg BitVec.toNat hval, toNat_getReg_VF_of_onlyRegsAndPc hx hframe⟩
  case or =>
    obtain ⟨-, -, hframe⟩ := of_exists_next horF h
    exact toNat_getReg_VF_of_onlyRegsAndPc hx hframe
  case and =>
    obtain ⟨-, -, hframe⟩ := of_exists_next handF h
    exact toNat_getReg_VF_of_onlyRegsAndPc hx hframe
  case xor =>
    obtain ⟨-, -, hframe⟩ := of_exists_next hxorF h
    exact toNat_getReg_VF_of_onlyRegsAndPc hx hframe
  case add =>
    obtain ⟨hflag, hval, -⟩ := of_exists_next (addSetsTheCarry s x VF) h
    exact ⟨hval hx, hflag⟩
  case sub =>
    obtain ⟨hval, hflag, -⟩ := of_exists_next hsub h
    exact ⟨hval, hflag hx⟩
  case shr =>
    obtain ⟨hval, hflag, -⟩ := of_exists_next hshr h
    exact ⟨hval, hflag hx⟩
  case subn =>
    obtain ⟨hval, hflag, -⟩ := of_exists_next hsubn h
    exact ⟨hval, hflag hx⟩
  case shl =>
    obtain ⟨hval, hflag, -⟩ := of_exists_next hshl h
    exact ⟨by rw [hval, Nat.mul_comm], hflag hx⟩

/-- Settles O26: the rows with `x = y = 15` are those with `x = 15`, at equal operands. -/
theorem registerFifteenAsOperand : Obligations.RegisterFifteenAsOperand := by
  unfold Obligations.RegisterFifteenAsOperand
  intro s t
  refine ⟨fun y _ => registerFifteen_as_x s t y, fun x hx => registerFifteen_as_y s t hx, ?_⟩
  have hF : (getReg s VF).toNat < 256 := (getReg s VF).isLt
  obtain ⟨-, -, -, -, hadd, hsub, hshr, hsubn, hshl⟩ := registerFifteen_as_x s t VF
  refine ⟨fun h => ?_, fun h => ?_, fun h => ?_, hshr, hshl⟩
  · rw [hadd h]
    split <;> omega
  · rw [hsub h]
    omega
  · rw [hsubn h]
    omega

/-! ### The random byte -/

/-- The frame of Cxkk: only Vx, the random source and `pc` may differ. -/
def SameExceptRegsRandomAndPc (ds : List Reg) (s t : State) : Prop :=
  SameRegsExcept ds s t ∧ SameMem s t ∧ t.i = s.i ∧ SameStack s t ∧ SameTimers s t ∧ SameKeypad s t

theorem sameExceptRegsRandomAndPc_drawn (s : State) (x : Reg) (b : Byte) :
    SameExceptRegsRandomAndPc [x] s (advance (setReg (drawRandom s) x b)) := by
  obtain ⟨hregs, -⟩ := onlyRegsAndPc_advance_setReg (drawRandom s) x b
  exact ⟨hregs, fun _ => rfl, rfl, ⟨rfl, rfl⟩, ⟨rfl, rfl⟩, ⟨rfl, rfl⟩⟩

theorem randomByte_of_cons {s : State} {r : Byte} {rest : List Byte} (h : s.randIn = r :: rest) : randomByte s = r := by
  simp only [randomByte, h]

theorem randomByte_of_nil {s : State} (h : s.randIn = []) : randomByte s = Config.freeRandomByte s.draws := by
  simp only [randomByte, h]

/-- Settles O27: with a byte on the input it is drawn, with none the free one is. -/
theorem randomByteUnderMask : Obligations.RandomByteUnderMask := by
  unfold Obligations.RandomByteUnderMask
  intro s x kk
  have hval : getReg (advance (setReg (drawRandom s) x (randomByte s &&& kk))) x = randomByte s &&& kk :=
    getReg_advance_setReg_self (drawRandom s) x _
  refine ⟨fun r rest h => ?_, fun h => ?_⟩
  · obtain ⟨hrest, hdraws⟩ := drawRandom_cons s r rest h
    exact ⟨_, rfl, by rw [hval, randomByte_of_cons h], hrest, hdraws, rfl, sameExceptRegsRandomAndPc_drawn s x _⟩
  · obtain ⟨hrest, hdraws⟩ := drawRandom_nil s h
    exact ⟨_, rfl, by rw [hval, randomByte_of_nil h], hrest, hdraws, rfl, sameExceptRegsRandomAndPc_drawn s x _⟩

/-! ### The index adder -/

theorem toNat_indexAdd (w : Nat) (i0 : BitVec w) (vx : Byte) :
    (indexAdd w i0 vx).toNat = (i0.toNat + vx.toNat) % 2 ^ w := BitVec.toNat_ofNat ..

/-- Settles O32: the adder at any width, at two of them. -/
theorem indexAdderWrapsAtEitherWidth : Obligations.IndexAdderWrapsAtEitherWidth :=
  fun vx => ⟨fun i => toNat_indexAdd 12 i vx, fun i => toNat_indexAdd 16 i vx⟩

/-- Settles O31: the adder at the width of `I`. -/
theorem indexAddWraps : Obligations.IndexAddWraps :=
  fun s x => ⟨_, rfl, toNat_indexAdd Config.iWidth s.i (getReg s x), rfl, sameExceptIndex_advance_setIndex s _⟩

end Sys2Proof.Machine

/-! ## Digits and register blocks in memory: what is stored and loaded, and the faults (rules R194, R198, R199) -/

namespace Sys2Proof.Machine

/-! ### Digits -/

theorem toNat_bcdDigits (b : Byte) :
    (bcdDigits b)[0].toNat = b.toNat / 100 ∧ (bcdDigits b)[1].toNat = b.toNat / 10 % 10 ∧
      (bcdDigits b)[2].toNat = b.toNat % 10 := by
  have hb := b.isLt
  refine ⟨?_, ?_, ?_⟩ <;> exact (BitVec.toNat_ofNat ..).trans (Nat.mod_eq_of_lt (by omega))

/-- Settles O33: the block written is the three digits. -/
theorem bcdStoresTheThreeDigits : Obligations.BcdStoresTheThreeDigits := by
  unfold Obligations.BcdStoresTheThreeDigits
  intro s x hm
  refine ⟨fun hfont hin => ?_, fun hout => ?_, fun hfont => ?_⟩
  · obtain ⟨hhundreds, htens, hones⟩ := toNat_bcdDigits (getReg s x)
    have hread (k : Nat) (hk : k < 3) :
        memRead (memWriteBytes s.mem (effAddr s 0) (bcdDigits (getReg s x))) (effAddr s 0 + k) =
          (bcdDigits (getReg s x))[k]'hk :=
      memRead_memWriteBytes_inside hm hk (by simp only [effAddr, Config.memSize]; omega)
    refine ⟨_, guarded_eq_next.mpr ⟨storeFault_of_in_range hfont hin, rfl⟩, ?_, ?_, ?_, rfl,
      onlyRegsMemAndPc_advance_setMem fun a ha => memRead_memWriteBytes_outside ?_⟩
    · exact (congrArg BitVec.toNat (hread 0 (by decide))).trans hhundreds
    · exact (congrArg BitVec.toNat (hread 1 (by decide))).trans htens
    · exact (congrArg BitVec.toNat (hread 2 (by decide))).trans hones
    · simp only [effAddr, length_bcdDigits] at *
      omega
  · exact exec_eq_fault_of_execFault (.digitsOutside x hout)
  · exact exec_eq_fault_of_execFault (.digitsInFont x hfont)

/-! ### Register blocks -/

/-- Settles O34: the block written is V0 to Vx. -/
theorem registerBlockIsStored : Obligations.RegisterBlockIsStored := by
  unfold Obligations.RegisterBlockIsStored
  intro s x hm
  refine ⟨fun hfont hin => ?_, fun hout => ?_, fun hfont => ?_⟩
  · have hlen : (regBlock s x).length = x.toNat + 1 := length_regBlock s x
    refine ⟨_, guarded_eq_next.mpr ⟨storeFault_of_in_range hfont hin, rfl⟩, fun k hk => ?stored, rfl,
      onlyRegsMemAndPc_advance_setMem fun a ha => memRead_memWriteBytes_outside ?kept⟩
    case stored =>
      have hk' : k.toNat < (regBlock s x).length := by omega
      have haddr : effAddr s 0 + k.toNat < Config.memSize := by
        simp only [effAddr, Config.memSize]
        omega
      exact (memRead_memWriteBytes_inside hm hk' haddr).trans (getElem_regBlock s x k hk')
    case kept =>
      simp only [effAddr] at *
      omega
  · exact exec_eq_fault_of_execFault (.storeOutside x hout)
  · exact exec_eq_fault_of_execFault (.storeInFont x hfont)

theorem mem_regsUpTo {x q : Reg} : q ∈ regsUpTo x ↔ q.toNat ≤ x.toNat := by
  simp only [regsUpTo, List.mem_map, List.mem_range]
  constructor
  · rintro ⟨k, hk, rfl⟩
    rw [BitVec.toNat_ofNat]
    exact (Nat.mod_le k _).trans (Nat.le_of_lt_succ hk)
  · exact fun h => ⟨q.toNat, Nat.lt_succ_of_le h, by rw [BitVec.ofNat_toNat, BitVec.setWidth_eq]⟩

/-- The frame of a block load. -/
theorem onlyRegsAndPc_loadRegs (s : State) (x : Reg) : OnlyRegsAndPc (regsUpTo x) s (loadRegs s x) := by
  refine ⟨fun q hq => ?_, fun a => by rw [loadRegs_mem], loadRegs_i .., ⟨loadRegs_sp .., loadRegs_stack ..⟩,
    ⟨loadRegs_dt .., loadRegs_st ..⟩, ⟨loadRegs_keys .., loadRegs_kw ..⟩, ⟨loadRegs_randIn .., loadRegs_draws ..⟩⟩
  rw [getReg_loadRegs, if_neg (mt mem_regsUpTo.mpr hq)]

/-- Settles O35: each register of the block reads as its byte, each above it as before. -/
theorem registerBlockIsLoaded : Obligations.RegisterBlockIsLoaded := by
  unfold Obligations.RegisterBlockIsLoaded
  intro s x
  refine ⟨fun hin => ?_, fun hout => exec_eq_fault_of_execFault (.loadOutside x hout)⟩
  obtain ⟨hregs, hframe⟩ := onlyRegsAndPc_advance (onlyRegsAndPc_loadRegs s x)
  refine ⟨advance (loadRegs s x), guarded_eq_next.mpr ⟨loadFault_of_in_range (.inr hin), rfl⟩, fun k hk => ?loaded,
    fun k hk => hregs k ?above, advance_pc _, hframe⟩
  case loaded =>
    rw [getReg_advance, getReg_loadRegs, if_pos hk]
    rfl
  case above => exact mt mem_regsUpTo.mp (Nat.not_le.mpr hk)

/-- A store that completed lay in memory. -/
theorem in_range_of_exec_opFx55 {s t : State} {x : Reg} (h : exec (.opFx55 x) s = .next t) :
    s.i.toNat + x.toNat ≤ 0xFFF := by
  by_contra hout
  cases (exec_eq_fault_of_execFault (.storeOutside x (Nat.lt_of_not_le hout))).symm.trans h

/-- Settles O36: each byte loaded is the one the store left for its register. -/
theorem storedBlockLoadsBack : Obligations.StoredBlockLoadsBack := by
  unfold Obligations.StoredBlockLoadsBack
  intro s t u x hm h hmem hi
  have hfont : 0x050 ≤ s.i.toNat := (exec_opFx55_eq_next h).1
  have hin := in_range_of_exec_opFx55 h
  obtain ⟨hstored, -⟩ := of_exists_next ((registerBlockIsStored s x hm).1 hfont hin) h
  obtain ⟨w, hw, hloaded, -⟩ := (registerBlockIsLoaded u x).1 (by rwa [hi])
  refine ⟨w, hw, fun k hk => ?_⟩
  rw [hloaded k hk, hmem, hi]
  exact hstored k hk

end Sys2Proof.Machine

/-! ## Drawing: what Dxyn leaves in the display and in VF, row by row and as a whole (rules R212 to R217) -/

namespace Sys2Proof.Machine

/-! ### Dxyn by its canvas -/

/-- The canvas the draw of `opDxyn x y n` in state `s` ends with. -/
def drawOf (s : State) (x y : Reg) (n : Nibble) : Canvas :=
  drawSprite s.mem s.i.toNat (getReg s x).toNat (getReg s y).toNat n.toNat

/-- The state a draw that completes leaves. -/
def drawnState (s : State) (x y : Reg) (n : Nibble) : State :=
  advance (setReg (setMem s (drawOf s x y n).mem) VF (flagByte (drawOf s x y n).hit))

theorem exec_opDxyn_of_in_range {s : State} (x y : Reg) {n : Nibble}
    (h : n.toNat = 0 ∨ s.i.toNat + (n.toNat - 1) ≤ 0xFFF) : exec (.opDxyn x y n) s = .next (drawnState s x y n) :=
  guarded_eq_next.mpr ⟨loadFault_of_in_range h, rfl⟩

theorem eq_drawnState_of_exec {s t : State} {x y : Reg} {n : Nibble} (h : exec (.opDxyn x y n) s = .next t) :
    t = drawnState s x y n :=
  (guarded_eq_next.mp h).2.symm

@[simp] theorem drawnState_mem (s : State) (x y : Reg) (n : Nibble) :
    (drawnState s x y n).mem = (drawOf s x y n).mem := rfl

@[simp] theorem getReg_drawnState_VF (s : State) (x y : Reg) (n : Nibble) :
    getReg (drawnState s x y n) VF = flagByte (drawOf s x y n).hit :=
  getReg_advance_setReg_self (setMem s (drawOf s x y n).mem) VF _

theorem onlyRegsMemAndPc_drawnState (s : State) (x y : Reg) (n : Nibble) :
    OnlyRegsMemAndPc [VF] (fun a => 0xF00 ≤ a ∧ a ≤ 0xFFF) s (drawnState s x y n) := by
  obtain ⟨hregs, -⟩ := onlyRegsAndPc_advance_setReg (setMem s (drawOf s x y n).mem) VF (flagByte (drawOf s x y n).hit)
  refine ⟨hregs, fun a ha => ?_, rfl, ⟨rfl, rfl⟩, ⟨rfl, rfl⟩, ⟨rfl, rfl⟩, ⟨rfl, rfl⟩⟩
  exact memRead_drawSprite_outside s.mem _ _ _ _ (by omega)

theorem flagByte_eq_zero_or_one (c : Bool) : flagByte c = 0 ∨ flagByte c = 1 := by
  cases c
  · exact .inl rfl
  · exact .inr rfl

/-- Settles O40: the canvas differs from memory in the display alone, and a draw of no rows not at all. -/
theorem drawTouchesOnlyDisplayAndVF : Obligations.DrawTouchesOnlyDisplayAndVF := by
  unfold Obligations.DrawTouchesOnlyDisplayAndVF
  intro s x y n
  refine ⟨fun hin => ?_, fun hpos hout => exec_eq_fault_of_execFault (.drawOutside x y n hpos (by omega))⟩
  refine ⟨_, exec_opDxyn_of_in_range x y (by omega), ?flag, fun hn => ?empty, rfl, onlyRegsMemAndPc_drawnState s x y n⟩
  case flag =>
    rw [getReg_drawnState_VF]
    exact flagByte_eq_zero_or_one _
  case empty =>
    have hdraw : drawOf s x y n = ⟨s.mem, false⟩ := by rw [drawOf, hn, drawSprite_zero]
    refine ⟨?_, fun a => ?_⟩
    · rw [getReg_drawnState_VF, hdraw]
      rfl
    · rw [drawnState_mem, hdraw]

/-! ### One more row -/

theorem drawOf_succ {s : State} (x y : Reg) {n n' : Nibble} (hn : n'.toNat = n.toNat + 1) :
    drawOf s x y n' = drawSpriteRow s.i.toNat (getReg s x).toNat (getReg s y).toNat (drawOf s x y n) n.toNat := by
  rw [drawOf, hn, drawSprite_succ, drawOf]

/-- Settles O41: the further row is drawn on the canvas the rows before left. -/
theorem eachSpriteRowIsReadAfterTheRowsBefore : Obligations.EachSpriteRowIsReadAfterTheRowsBefore := by
  unfold Obligations.EachSpriteRowIsReadAfterTheRowsBefore
  intro s t u x y n n' hm hn ht hu
  obtain rfl := eq_drawnState_of_exec ht
  obtain rfl := eq_drawnState_of_exec hu
  have hrow : Draws (drawOf s x y n) (drawOf s x y n') (rowCovers (memRead (drawOf s x y n).mem (s.i.toNat + n.toNat))
      (getReg s x).toNat ((getReg s y).toNat + n.toNat)) := by
    rw [drawOf_succ x y hn]
    exact drawRow_spec (memWf_drawSprite hm _ _ _ _) _ _ _
  simp only [getReg_drawnState_VF, flagByte_eq_one, drawnState_mem]
  exact ⟨fun px py hpx hpy => ⟨hrow.inside px py hpx hpy, hrow.beside px py hpx hpy⟩, hrow.hit⟩

/-! ### A whole sprite whose source lies below the display -/

/-- Two draws that cover no pixel in common, one after the other. -/
theorem Draws.trans {c d e : Canvas} {P Q : Nat → Nat → Prop} (hcd : Draws c d P) (hde : Draws d e Q)
    (hdisj : ∀ px py, P px py → ¬ Q px py) : Draws c e fun px py => P px py ∨ Q px py where
  wf := hde.wf
  outside a ha := (hde.outside a ha).trans (hcd.outside a ha)
  inside px py hpx hpy := by
    rintro (hP | hQ)
    · rw [hde.beside px py hpx hpy (hdisj px py hP), hcd.inside px py hpx hpy hP]
    · rw [hde.inside px py hpx hpy hQ, hcd.beside px py hpx hpy fun hP => hdisj px py hP hQ]
  beside px py hpx hpy h := by
    obtain ⟨hP, hQ⟩ := not_or.mp h
    rw [hde.beside px py hpx hpy hQ, hcd.beside px py hpx hpy hP]
  hit := by
    rw [hde.hit, hcd.hit, or_assoc]
    refine or_congr_right ⟨?_, ?_⟩
    · rintro (⟨px, py, hpx, hpy, hP, hlit⟩ | ⟨px, py, hpx, hpy, hQ, hlit⟩)
      · exact ⟨px, py, hpx, hpy, .inl hP, hlit⟩
      · rw [hcd.beside px py hpx hpy fun hP => hdisj px py hP hQ] at hlit
        exact ⟨px, py, hpx, hpy, .inr hQ, hlit⟩
    · rintro ⟨px, py, hpx, hpy, hP | hQ, hlit⟩
      · exact .inl ⟨px, py, hpx, hpy, hP, hlit⟩
      · rw [← hcd.beside px py hpx hpy fun hP => hdisj px py hP hQ] at hlit
        exact .inr ⟨px, py, hpx, hpy, hQ, hlit⟩

/-- A draw that covers nothing. -/
theorem draws_refl {c : Canvas} (hw : memWf c.mem = true) {P : Nat → Nat → Prop} (hP : ∀ px py, ¬ P px py) :
    Draws c c P where
  wf := hw
  outside _ _ := rfl
  inside px py _ _ h := absurd h (hP px py)
  beside _ _ _ _ _ := rfl
  hit := ⟨.inl, fun h => h.resolve_right fun ⟨px, py, _, _, h, _⟩ => hP px py h⟩

section

variable {m : List Host.Cell} {i0 vx vy n px py : Nat}

theorem not_spriteCovers_zero : ¬ spriteCovers m i0 vx vy 0 px py :=
  fun ⟨_, hrow, _⟩ => Nat.not_lt_zero _ hrow

theorem spriteCovers_succ :
    spriteCovers m i0 vx vy (n + 1) px py ↔
      spriteCovers m i0 vx vy n px py ∨ rowCovers (memRead m (i0 + n)) vx (vy + n) px py := by
  constructor
  · rintro ⟨row, hrow, hcover⟩
    obtain hlt | rfl := Nat.lt_succ_iff_lt_or_eq.mp hrow
    · exact .inl ⟨row, hlt, hcover⟩
    · exact .inr hcover
  · rintro (⟨row, hrow, hcover⟩ | hcover)
    · exact ⟨row, Nat.lt_succ_of_lt hrow, hcover⟩
    · exact ⟨n, Nat.lt_succ_self n, hcover⟩

/-- Up to 32 rows lie on different display rows. -/
theorem not_rowCovers_of_spriteCovers {b : Byte} (hn : n < 32) (h : spriteCovers m i0 vx vy n px py) :
    ¬ rowCovers b vx (vy + n) px py := by
  rintro ⟨hpy, -⟩
  obtain ⟨row, hrow, hpy', -⟩ := h
  omega

/-- The pixels a sprite covers depend on its source bytes alone. -/
theorem spriteCovers_congr {m' : List Host.Cell} (h : ∀ row, row < n → memRead m' (i0 + row) = memRead m (i0 + row)) :
    spriteCovers m' i0 vx vy n px py ↔ spriteCovers m i0 vx vy n px py :=
  exists_congr fun row => and_congr_right fun hrow => by rw [h row hrow]

end

/-- By induction on the rows: each is read from memory no row before it wrote. -/
theorem draws_drawSprite {m : List Host.Cell} (hm : memWf m = true) {i0 : Nat} (vx vy : Nat) {n : Nat} (hn : n ≤ 32)
    (hsrc : i0 + n ≤ 0xF00) : Draws ⟨m, false⟩ (drawSprite m i0 vx vy n) (spriteCovers m i0 vx vy n) := by
  induction n with
  | zero => exact draws_refl hm fun _ _ => not_spriteCovers_zero
  | succ n ih =>
    have hbefore := ih (by omega) (by omega)
    have hread : memRead (drawSprite m i0 vx vy n).mem (i0 + n) = memRead m (i0 + n) :=
      memRead_drawSprite_outside m i0 vx vy n (.inl (by omega))
    have hrow := drawRow_spec hbefore.wf (memRead (drawSprite m i0 vx vy n).mem (i0 + n)) vx (vy + n)
    rw [drawSprite_succ, drawSpriteRow, hread]
    rw [hread] at hrow
    have hboth := hbefore.trans hrow fun _ _ => not_rowCovers_of_spriteCovers (by omega)
    simpa only [← spriteCovers_succ] using hboth

section

variable {s : State} (x y : Reg) {n : Nibble} (hm : memWf s.mem = true) (hsrc : s.i.toNat + n.toNat ≤ 0xF00)

include hm hsrc

theorem draws_drawOf : Draws ⟨s.mem, false⟩ (drawOf s x y n)
    (spriteCovers s.mem s.i.toNat (getReg s x).toNat (getReg s y).toNat n.toNat) :=
  draws_drawSprite hm _ _ (Nat.le_of_lt (n.isLt.trans (by decide))) hsrc

/-- VF ends 1 exactly on a collision. -/
theorem hit_drawOf : (drawOf s x y n).hit = true ↔ ∃ px py, px < 64 ∧ py < 32 ∧
    spriteCovers s.mem s.i.toNat (getReg s x).toNat (getReg s y).toNat n.toNat px py ∧
    pixelLit s.mem px py = true := by
  rw [(draws_drawOf x y hm hsrc).hit]
  exact or_iff_right Bool.false_ne_true

end

/-- Settles O42: the draw as a whole covers the pixels of its rows, each once. -/
theorem drawXorsTheSpriteOntoTheDisplay : Obligations.DrawXorsTheSpriteOntoTheDisplay := by
  unfold Obligations.DrawXorsTheSpriteOntoTheDisplay
  intro s x y n hm hsrc
  have hdraws := draws_drawOf x y hm hsrc
  have hhit := hit_drawOf x y hm hsrc
  refine ⟨_, exec_opDxyn_of_in_range x y (by omega),
    fun px py hpx hpy => ⟨hdraws.inside px py hpx hpy, hdraws.beside px py hpx hpy⟩, ?_, ?_⟩
  · rw [getReg_drawnState_VF, flagByte_eq_one, hhit]
  · rw [getReg_drawnState_VF, flagByte_eq_zero, ← Bool.not_eq_true, hhit]

/-! ### The second draw -/

/-- Every bit of a display byte is a pixel. -/
theorem memRead_eq_of_pixelLit_eq {m m' : List Host.Cell}
    (h : ∀ px py, px < 64 → py < 32 → pixelLit m px py = pixelLit m' px py) {a : Nat} (hlo : 0xF00 ≤ a)
    (hhi : a ≤ 0xFFF) : memRead m a = memRead m' a := by
  apply BitVec.eq_of_getLsbD_eq
  intro j hj
  have hpixel := h ((a - 0xF00) % 8 * 8 + (7 - j)) ((a - 0xF00) / 8) (by omega) (by omega)
  have haddr : pixelAddr ((a - 0xF00) % 8 * 8 + (7 - j)) ((a - 0xF00) / 8) = a := by
    simp only [pixelAddr, Config.displayBase]
    omega
  have hbit : 7 - ((a - 0xF00) % 8 * 8 + (7 - j)) % 8 = j := by omega
  simpa only [pixelLit, haddr, hbit] using hpixel

/-- Two draws that cover the same pixels, one after the other, restore memory. -/
theorem Draws.mem_eq_of_again {c d d' e : Canvas} {P Q : Nat → Nat → Prop} (hc : memWf c.mem = true)
    (hcd : Draws c d P) (hde : Draws d' e Q) (hmem : d'.mem = d.mem) (hPQ : ∀ px py, Q px py ↔ P px py) :
    e.mem = c.mem := by
  refine eq_of_memRead_eq hde.wf hc fun a ha => ?_
  by_cases hin : 0xF00 ≤ a
  · refine memRead_eq_of_pixelLit_eq (fun px py hpx hpy => ?_) hin (Nat.le_of_lt_succ ha)
    by_cases hP : P px py
    · rw [hde.inside px py hpx hpy ((hPQ px py).mpr hP), hmem, hcd.inside px py hpx hpy hP, Bool.not_not]
    · rw [hde.beside px py hpx hpy (mt (hPQ px py).mp hP), hmem, hcd.beside px py hpx hpy hP]
  · rw [hde.outside a (by omega), hmem, hcd.outside a (by omega)]

/-- On a blank display no pixel is lit. -/
theorem pixelLit_of_blank {m : List Host.Cell} (h : ∀ a, 0xF00 ≤ a → a ≤ 0xFFF → memRead m a = 0) {px py : Nat}
    (hpx : px < 64) (hpy : py < 32) : pixelLit m px py = false := by
  obtain ⟨hlo, hhi⟩ := pixelAddr_in_display hpx hpy
  rw [pixelLit, h _ hlo hhi]
  exact BitVec.getLsbD_zero

/-- A sprite covers some pixel exactly when it has a set bit. -/
theorem exists_spriteCovers_iff {m : List Host.Cell} {i0 vx vy n : Nat} :
    (∃ px py, px < 64 ∧ py < 32 ∧ spriteCovers m i0 vx vy n px py) ↔
      ∃ row col, row < n ∧ col < 8 ∧ (memRead m (i0 + row)).getLsbD col = true := by
  constructor
  · rintro ⟨px, py, -, -, row, hrow, -, col, hcol, -, hbit⟩
    exact ⟨row, 7 - col, hrow, by omega, hbit⟩
  · rintro ⟨row, col, hrow, hcol, hbit⟩
    refine ⟨(vx + (7 - col)) % 64, (vy + row) % 32, Nat.mod_lt _ (by decide), Nat.mod_lt _ (by decide), row, hrow, rfl,
      7 - col, by omega, rfl, ?_⟩
    rwa [show 7 - (7 - col) = col by omega]

/-- Settles O43: both draws cover the same pixels, since the first one leaves the source alone. -/
theorem drawingTwiceRestoresTheDisplay : Obligations.DrawingTwiceRestoresTheDisplay := by
  unfold Obligations.DrawingTwiceRestoresTheDisplay
  intro s t u w x y n hm hsrc ht hmem hi hx hy hw
  obtain rfl := eq_drawnState_of_exec ht
  obtain rfl := eq_drawnState_of_exec hw
  have hfirst := draws_drawOf x y hm hsrc
  have hmu : memWf u.mem = true := hmem ▸ hfirst.wf
  have hsrcu : u.i.toNat + n.toNat ≤ 0xF00 := by rwa [hi]
  have hsecond := draws_drawOf x y hmu hsrcu
  have hcovers (px py : Nat) :
      spriteCovers u.mem u.i.toNat (getReg u x).toNat (getReg u y).toNat n.toNat px py ↔
        spriteCovers s.mem s.i.toNat (getReg s x).toNat (getReg s y).toNat n.toNat px py := by
    rw [hi, hx, hy, hmem]
    exact spriteCovers_congr fun row hrow => hfirst.outside _ (.inl (by omega))
  refine ⟨hfirst.mem_eq_of_again hm hsecond hmem hcovers, fun hblank => ⟨?_, ?_⟩⟩
  · rw [getReg_drawnState_VF, flagByte_eq_zero, ← Bool.not_eq_true, hit_drawOf x y hm hsrc]
    rintro ⟨px, py, hpx, hpy, -, hlit⟩
    exact Bool.false_ne_true ((pixelLit_of_blank hblank hpx hpy).symm.trans hlit)
  · rw [getReg_drawnState_VF, flagByte_eq_one, hit_drawOf x y hmu hsrcu, ← exists_spriteCovers_iff]
    refine exists_congr fun px => exists_congr fun py => and_congr_right fun hpx => and_congr_right fun hpy => ?_
    rw [hcovers, hmem]
    refine and_iff_left_of_imp fun hcover => ?_
    rw [drawnState_mem, hfirst.inside px py hpx hpy hcover, pixelLit_of_blank hblank hpx hpy, Bool.not_false]

end Sys2Proof.Machine

/-! ## What each instruction and each host operation writes (rules R23, R49) -/

namespace Sys2Proof.Machine

/-! ### What a completed instruction leaves alone -/

/-- An instruction that may store to address `a`. -/
abbrev MayStore (i : Instr) (a : Nat) : Prop :=
  0x050 ≤ a ∧ a ≤ 0xFFF ∧
    ((∃ x, i = .opFx33 x) ∨ (∃ x, i = .opFx55 x) ∨ (0xF00 ≤ a ∧ (i = .op00E0 ∨ ∃ x y n, i = .opDxyn x y n)))

/-- The ways in which an instruction that completes changes the state: only the registers of its "writes" column and
`pc`, or one more item besides. -/
inductive Frame (i : Instr) (s t : State) : Prop
  | regs (h : OnlyRegsAndPc (regsWritten i) s t)
  | memory (stored : Nat → Prop) (h : OnlyRegsMemAndPc (regsWritten i) stored s t) (hi : ∀ a, stored a → MayStore i a)
  | index (h : SameRegsExcept [] s t ∧ SameMem s t ∧ SameStack s t ∧ SameTimers s t ∧ SameKeypad s t ∧ SameRandom s t)
      (hi : (∃ nnn, i = .opAnnn nnn) ∨ (∃ x, i = .opFx1E x) ∨ (∃ x, i = .opFx29 x))
  | stack (h : SameExceptStackAndPc s t) (hi : (∃ nnn, i = .op2nnn nnn) ∨ i = .op00EE)
  | delay (h : SameExceptTimersAndPc s t) (hst : t.st = s.st) (hi : ∃ x, i = .opFx15 x)
  | sound (h : SameExceptTimersAndPc s t) (hdt : t.dt = s.dt) (hi : ∃ x, i = .opFx18 x)
  | keypad (h : SameExceptRegsKeypadAndPc (regsWritten i) s t) (hkeys : t.keys = s.keys) (hi : ∃ x, i = .opFx0A x)
  | random (h : SameExceptRegsRandomAndPc (regsWritten i) s t) (hi : ∃ x kk, i = .opCxkk x kk)

/-- An instruction that writes no register and stores one block of bytes. -/
theorem frame_of_memWriteBytes {i : Instr} {s : State} {a : Nat} {bs : List Byte} (hregs : regsWritten i = [])
    (hi : ∀ c, a ≤ c → c < a + bs.length → MayStore i c) :
    Frame i s (advance (setMem s (memWriteBytes s.mem a bs))) := by
  refine .memory (fun c => a ≤ c ∧ c < a + bs.length) ?_ fun c hc => hi c hc.1 hc.2
  rw [hregs]
  exact onlyRegsMemAndPc_advance_setMem fun c hc => memRead_memWriteBytes_outside (by omega)

/-- Digits that were stored lay in memory. -/
theorem in_range_of_exec_opFx33 {s t : State} {x : Reg} (h : exec (.opFx33 x) s = .next t) :
    s.i.toNat + 2 ≤ 0xFFF := by
  by_contra hout
  cases (exec_eq_fault_of_execFault (.digitsOutside x (Nat.lt_of_not_le hout))).symm.trans h

theorem frame_of_exec {i : Instr} {s t : State} (h : exec i s = .next t) : Frame i s t := by
  cases i
  case op00E0 =>
    have ht : t = advance (setMem s (memWriteBytes s.mem Config.displayBase (List.replicate Config.displaySize 0))) :=
      (Host.Outcome.next.inj h).symm
    rw [ht]
    refine frame_of_memWriteBytes rfl fun c hlo hhi => ?_
    simp only [Config.displayBase, List.length_replicate, Config.displaySize] at hlo hhi
    exact ⟨by omega, by omega, .inr (.inr ⟨hlo, .inl rfl⟩)⟩
  case opDxyn x y n =>
    obtain rfl := eq_drawnState_of_exec h
    exact .memory _ (onlyRegsMemAndPc_drawnState s x y n)
      fun c hc => ⟨by omega, hc.2, .inr (.inr ⟨hc.1, .inr ⟨x, y, n, rfl⟩⟩)⟩
  case opFx33 x =>
    have hin := in_range_of_exec_opFx33 h
    obtain ⟨hfont, rfl⟩ := exec_opFx33_eq_next h
    refine frame_of_memWriteBytes rfl fun c hlo hhi => ?_
    simp only [effAddr, Config.fontEnd, length_bcdDigits] at hfont hlo hhi
    exact ⟨by omega, by omega, .inl ⟨x, rfl⟩⟩
  case opFx55 x =>
    have hin := in_range_of_exec_opFx55 h
    obtain ⟨hfont, rfl⟩ := exec_opFx55_eq_next h
    refine frame_of_memWriteBytes rfl fun c hlo hhi => ?_
    simp only [effAddr, Config.fontEnd, length_regBlock, blockLength] at hfont hlo hhi
    exact ⟨by omega, by omega, .inr (.inl ⟨x, rfl⟩)⟩
  case opAnnn nnn =>
    cases h
    exact .index (sameExceptIndex_advance_setIndex s _) (.inl ⟨nnn, rfl⟩)
  case opFx1E x =>
    cases h
    exact .index (sameExceptIndex_advance_setIndex s _) (.inr (.inl ⟨x, rfl⟩))
  case opFx29 x =>
    cases h
    exact .index (sameExceptIndex_advance_setIndex s _) (.inr (.inr ⟨x, rfl⟩))
  case op2nnn nnn =>
    obtain ⟨_, _, _, hexec⟩ | ⟨_, hexec⟩ := exec_op2nnn_cases nnn s <;> cases hexec.symm.trans h
    exact .stack (sameExceptStackAndPc_update s _ _ _) (.inl ⟨nnn, rfl⟩)
  case op00EE =>
    obtain ⟨_, _, _, hexec⟩ | ⟨_, hexec⟩ := exec_op00EE_cases s <;> cases hexec.symm.trans h
    exact .stack (sameExceptStackAndPc_update s _ _ _) (.inr rfl)
  case opFx15 x =>
    cases h
    exact .delay (sameExceptTimersAndPc_advance_setDelay s _) rfl ⟨x, rfl⟩
  case opFx18 x =>
    cases h
    exact .sound (sameExceptTimersAndPc_advance_setSound s _) rfl ⟨x, rfl⟩
  case opFx0A x =>
    obtain ⟨-, b, kw, rfl⟩ | ⟨-, kw, rfl⟩ := exec_opFx0A_eq_next h
    · have hwrite : OnlyRegsAndPc [x] s (setReg s x b) :=
        onlyRegsAndPc_setReg (onlyRegsAndPc_refl [x] s) List.mem_cons_self b
      exact .keypad (sameExceptRegsKeypadAndPc_advance (sameExceptRegsKeypadAndPc_setWait hwrite kw)) rfl ⟨x, rfl⟩
    · exact .keypad (sameExceptRegsKeypadAndPc_setWait (onlyRegsAndPc_refl _ s) kw) rfl ⟨x, rfl⟩
  case opCxkk x kk =>
    cases h
    exact .random (sameExceptRegsRandomAndPc_drawn s x _) ⟨x, kk, rfl⟩
  case opFx65 x =>
    rw [exec_opFx65_eq_next h]
    exact .regs (onlyRegsAndPc_advance (onlyRegsAndPc_loadRegs s x))
  case opEx9E x =>
    rw [exec_opEx9E_eq_next h]
    exact .regs (onlyPc_skipIf _ s)
  case opExA1 x =>
    rw [exec_opExA1_eq_next h]
    exact .regs (onlyPc_skipIf _ s)
  case op3xkk | op4xkk | op5xy0 | op9xy0 | op1nnn | opBnnn =>
    cases h
    exact .regs (onlyPc_setPc s _)
  case op8xy4 x y =>
    cases h
    exact .regs (onlyRegsAndPc_advance (onlyRegsAndPc_resultThenFlag s x _ _))
  case op8xy5 x y | op8xy6 x y | op8xy7 x y | op8xyE x y =>
    cases h
    exact .regs (onlyRegsAndPc_advance (onlyRegsAndPc_flagThenResult s x _ _))
  case op6xkk x _ | op7xkk x _ | op8xy0 x _ | op8xy1 x _ | op8xy2 x _ | op8xy3 x _ | opFx07 x =>
    cases h
    exact .regs (onlyRegsAndPc_advance_setReg s x _)

/-- Settles O47: by the one item beside registers and `pc` that the instruction changes. -/
theorem instructionsWriteOnlyTheirState : Obligations.InstructionsWriteOnlyTheirState := by
  unfold Obligations.InstructionsWriteOnlyTheirState
  intro i s t h
  cases frame_of_exec h with
  | regs h =>
    obtain ⟨-, hmem, hi, hstack, ⟨hdt, hst⟩, ⟨hkeys, hkw⟩, hrandom⟩ := h
    exact ⟨fun a ha => absurd (hmem a) ha, (absurd hi ·), (absurd hstack ·), (absurd hdt ·), (absurd hst ·), hkeys,
      (absurd hkw ·), (absurd hrandom ·)⟩
  | memory stored h hw =>
    obtain ⟨-, hmem, hi, hstack, ⟨hdt, hst⟩, ⟨hkeys, hkw⟩, hrandom⟩ := h
    exact ⟨fun a ha => hw a (not_not.mp (mt (hmem a) ha)), (absurd hi ·), (absurd hstack ·), (absurd hdt ·),
      (absurd hst ·), hkeys, (absurd hkw ·), (absurd hrandom ·)⟩
  | index h hw =>
    obtain ⟨-, hmem, hstack, ⟨hdt, hst⟩, ⟨hkeys, hkw⟩, hrandom⟩ := h
    exact ⟨fun a ha => absurd (hmem a) ha, fun _ => hw, (absurd hstack ·), (absurd hdt ·), (absurd hst ·), hkeys,
      (absurd hkw ·), (absurd hrandom ·)⟩
  | stack h hw =>
    obtain ⟨-, hmem, hi, ⟨hdt, hst⟩, ⟨hkeys, hkw⟩, hrandom⟩ := h
    exact ⟨fun a ha => absurd (hmem a) ha, (absurd hi ·), fun _ => hw, (absurd hdt ·), (absurd hst ·), hkeys,
      (absurd hkw ·), (absurd hrandom ·)⟩
  | delay h hst hw =>
    obtain ⟨-, hmem, hi, hstack, ⟨hkeys, hkw⟩, hrandom⟩ := h
    exact ⟨fun a ha => absurd (hmem a) ha, (absurd hi ·), (absurd hstack ·), fun _ => hw, (absurd hst ·), hkeys,
      (absurd hkw ·), (absurd hrandom ·)⟩
  | sound h hdt hw =>
    obtain ⟨-, hmem, hi, hstack, ⟨hkeys, hkw⟩, hrandom⟩ := h
    exact ⟨fun a ha => absurd (hmem a) ha, (absurd hi ·), (absurd hstack ·), (absurd hdt ·), fun _ => hw, hkeys,
      (absurd hkw ·), (absurd hrandom ·)⟩
  | keypad h hkeys hw =>
    obtain ⟨-, hmem, hi, hstack, ⟨hdt, hst⟩, hrandom⟩ := h
    exact ⟨fun a ha => absurd (hmem a) ha, (absurd hi ·), (absurd hstack ·), (absurd hdt ·), (absurd hst ·), hkeys,
      fun _ => hw, (absurd hrandom ·)⟩
  | random h hw =>
    obtain ⟨-, hmem, hi, hstack, ⟨hdt, hst⟩, ⟨hkeys, hkw⟩⟩ := h
    exact ⟨fun a ha => absurd (hmem a) ha, (absurd hi ·), (absurd hstack ·), (absurd hdt ·), (absurd hst ·), hkeys,
      (absurd hkw ·), fun _ => hw⟩

theorem sameRegsExcept_of_nil {ds : List Reg} {s t : State} (h : SameRegsExcept [] s t) : SameRegsExcept ds s t :=
  fun r _ => h r List.not_mem_nil

/-- A completed instruction writes no register outside its "writes" column. -/
theorem sameRegsExcept_regsWritten {i : Instr} {s t : State} (h : exec i s = .next t) :
    SameRegsExcept (regsWritten i) s t := by
  cases frame_of_exec h with
  | regs h | memory _ h | keypad h | random h => exact h.1
  | index h | stack h | delay h | sound h => exact sameRegsExcept_of_nil h.1

/-! ### The host's operations -/

/-- Settles O48: only LOAD writes memory, and only its own block. -/
theorem hostOperationsWriteOnlyTheirState : Obligations.HostOperationsWriteOnlyTheirState := by
  unfold Obligations.HostOperationsWriteOnlyTheirState
  intro o s hreset hstep
  cases o with
  | reset => exact absurd rfl hreset
  | step r => exact absurd rfl (hstep r)
  | load program =>
    obtain hfits | hover := le_or_gt (program.length + 0x200) 4096
    · rw [transact_load_of_fits s hfits]
      refine ⟨fun a ha => ?_, rfl, rfl, rfl, ⟨rfl, rfl⟩, ⟨rfl, rfl⟩, (absurd rfl ·), (absurd rfl ·), (absurd rfl ·), rfl⟩
      have hblock : ¬ (a < Config.programBase ∨ Config.programBase + program.length ≤ a) :=
        mt memRead_memWriteBytes_outside ha
      simp only [Config.programBase] at hblock
      exact ⟨by omega, by omega, program, rfl⟩
    · rw [transact_load_of_oversized s hover]
      exact ⟨fun a ha => absurd rfl ha, rfl, rfl, rfl, ⟨rfl, rfl⟩, ⟨rfl, rfl⟩, (absurd rfl ·), (absurd rfl ·),
        (absurd rfl ·), rfl⟩
  | tick =>
    exact ⟨fun a ha => absurd rfl ha, rfl, rfl, rfl, ⟨rfl, rfl⟩, ⟨rfl, rfl⟩, fun _ => rfl, fun _ => rfl, (absurd rfl ·),
      rfl⟩
  | keyDown k =>
    exact ⟨fun a ha => absurd rfl ha, rfl, rfl, rfl, ⟨rfl, rfl⟩, ⟨rfl, rfl⟩, (absurd rfl ·), (absurd rfl ·),
      fun _ => .inl ⟨k, rfl⟩, rfl⟩
  | keyUp k =>
    exact ⟨fun a ha => absurd rfl ha, rfl, rfl, rfl, ⟨rfl, rfl⟩, ⟨rfl, rfl⟩, (absurd rfl ·), (absurd rfl ·),
      fun _ => .inr ⟨k, rfl⟩, rfl⟩
  | display | beep =>
    exact ⟨fun a ha => absurd rfl ha, rfl, rfl, rfl, ⟨rfl, rfl⟩, ⟨rfl, rfl⟩, (absurd rfl ·), (absurd rfl ·),
      (absurd rfl ·), rfl⟩

end Sys2Proof.Machine

/-! ## Noninterference: what sees the index register, the latch, the random source and each register (rules R23, R41,
R200, R276) -/

namespace Sys2Proof.Machine

section

variable {s : State}

theorem exec_op2nnn_of_free (nnn : Addr12) (h : s.sp.val + 2 ≤ 64) (hk : s.sp.val / 2 < Config.stackDepth)
    (hsp : s.sp.val + 2 < Config.spLimit + 1) : exec (.op2nnn nnn) s = .next { s with
      stack := s.stack.set (s.sp.val / 2) s.pc hk, sp := ⟨s.sp.val + 2, hsp⟩, pc := addrTarget nnn } := by
  obtain ⟨_, _, _, hexec⟩ | ⟨hfull, -⟩ := exec_op2nnn_cases nnn s
  · exact hexec
  · omega

theorem exec_op00EE_of_held (h : 2 ≤ s.sp.val) (hk : (s.sp.val - 2) / 2 < Config.stackDepth)
    (hsp : s.sp.val - 2 < Config.spLimit + 1) : exec .op00EE s = .next { s with
      sp := ⟨s.sp.val - 2, hsp⟩, pc := s.stack[(s.sp.val - 2) / 2] + 2 } := by
  obtain ⟨_, _, _, hexec⟩ | ⟨hempty, -⟩ := exec_op00EE_cases s
  · exact hexec
  · omega

end

/-! ### Items that few instructions see -/

/-- `s` with the index register, the latch or the random source replaced, where a replacement is given. -/
def overlay (w : Option (BitVec Config.iWidth)) (kw : Option KeyWait) (q : Option (List Byte × Nat)) (s : State) :
    State :=
  { s with
    i := w.getD s.i
    kw := kw.getD s.kw
    randIn := (q.map Prod.fst).getD s.randIn
    draws := (q.map Prod.snd).getD s.draws }

theorem onNext_guarded (f : State → State) (F : Option Fault) (t : State) :
    onNext f (guarded F t) = guarded F (f t) := by
  cases F <;> rfl

/-- The instructions that read or write `I`. -/
inductive UsesIndex : Instr → Prop
  | annn (nnn : Addr12) : UsesIndex (.opAnnn nnn)
  | fx1E (x : Reg) : UsesIndex (.opFx1E x)
  | fx29 (x : Reg) : UsesIndex (.opFx29 x)
  | fx33 (x : Reg) : UsesIndex (.opFx33 x)
  | fx55 (x : Reg) : UsesIndex (.opFx55 x)
  | fx65 (x : Reg) : UsesIndex (.opFx65 x)
  | dxyn (x y : Reg) (n : Nibble) : UsesIndex (.opDxyn x y n)

/-- An instruction runs the same under the replacement of items it does not use, and leaves the replacement alone. -/
theorem exec_overlay {i : Instr} {w : Option (BitVec Config.iWidth)} {kw : Option KeyWait}
    {q : Option (List Byte × Nat)} (hw : UsesIndex i → w = none) (hkw : (∃ x, i = .opFx0A x) → kw = none)
    (hq : (∃ x kk, i = .opCxkk x kk) → q = none) (s : State) :
    exec i (overlay w kw q s) = onNext (overlay w kw q) (exec i s) := by
  cases i
  case op2nnn nnn =>
    obtain ⟨hfree, hk, hsp, hexec⟩ | ⟨hfull, hexec⟩ := exec_op2nnn_cases nnn s
    · rw [hexec, exec_op2nnn_of_free (s := overlay w kw q s) nnn hfree hk hsp]
      rfl
    · rw [hexec, exec_eq_fault_of_execFault (.callFull (s := overlay w kw q s) nnn hfull)]
      rfl
  case op00EE =>
    obtain ⟨hle, hk, hsp, hexec⟩ | ⟨hempty, hexec⟩ := exec_op00EE_cases s
    · rw [hexec, exec_op00EE_of_held (s := overlay w kw q s) hle hk hsp]
      rfl
    · rw [hexec, exec_eq_fault_of_execFault (.returnEmpty (s := overlay w kw q s) hempty)]
      rfl
  case opEx9E x =>
    obtain hle | hgt := le_or_gt (getReg s x).toNat 15
    · rw [exec_opEx9E_of_le hle, exec_opEx9E_of_le (s := overlay w kw q s) hle]
      rfl
    · rw [exec_opEx9E_of_gt hgt, exec_opEx9E_of_gt (s := overlay w kw q s) hgt]
      rfl
  case opExA1 x =>
    obtain hle | hgt := le_or_gt (getReg s x).toNat 15
    · rw [exec_opExA1_of_le hle, exec_opExA1_of_le (s := overlay w kw q s) hle]
      rfl
    · rw [exec_opExA1_of_gt hgt, exec_opExA1_of_gt (s := overlay w kw q s) hgt]
      rfl
  case opFx0A x =>
    obtain rfl := hkw ⟨x, rfl⟩
    cases hl : s.kw.latched <;> by_cases hk : s.keys = 0
    · rw [exec_opFx0A_of_unlatched_of_no_key x hl hk,
        exec_opFx0A_of_unlatched_of_no_key (s := overlay w none q s) x hl hk]
      rfl
    · rw [exec_opFx0A_of_unlatched_of_key x hl hk, exec_opFx0A_of_unlatched_of_key (s := overlay w none q s) x hl hk]
      rfl
    · rw [exec_opFx0A_of_latched_of_no_key x hl hk, exec_opFx0A_of_latched_of_no_key (s := overlay w none q s) x hl hk]
      rfl
    · rw [exec_opFx0A_of_latched_of_key x hl hk, exec_opFx0A_of_latched_of_key (s := overlay w none q s) x hl hk]
      rfl
  case opCxkk x kk =>
    obtain rfl := hq ⟨x, kk, rfl⟩
    rfl
  case opAnnn nnn =>
    obtain rfl := hw (.annn nnn)
    rfl
  case opFx1E x =>
    obtain rfl := hw (.fx1E x)
    rfl
  case opFx29 x =>
    obtain rfl := hw (.fx29 x)
    rfl
  case opFx33 x =>
    obtain rfl := hw (.fx33 x)
    change execFx33 x _ = onNext _ (execFx33 x s)
    rw [execFx33, execFx33, onNext_guarded]
    rfl
  case opFx55 x =>
    obtain rfl := hw (.fx55 x)
    change execFx55 x _ = onNext _ (execFx55 x s)
    rw [execFx55, execFx55, onNext_guarded]
    rfl
  case opFx65 x =>
    obtain rfl := hw (.fx65 x)
    change execFx65 x _ = onNext _ (execFx65 x s)
    rw [execFx65, execFx65, onNext_guarded]
    rfl
  case opDxyn x y n =>
    obtain rfl := hw (.dxyn x y n)
    change execDxyn x y n _ = onNext _ (execDxyn x y n s)
    rw [execDxyn, execDxyn, onNext_guarded]
    rfl
  case op00E0 =>
    change exec00E0 _ = onNext _ (exec00E0 s)
    unfold exec00E0
    generalize List.replicate Config.displaySize (0 : Byte) = bs
    rfl
  all_goals rfl

/-- Settles O28: the replacement of the random source alone. -/
theorem onlyCxkkSeesTheRandomByte : Obligations.OnlyCxkkSeesTheRandomByte := by
  unfold Obligations.OnlyCxkkSeesTheRandomByte
  refine ⟨fun s q d => fetchInstr_congr rfl rfl, fun i s q d hi => ?_⟩
  exact exec_overlay (w := none) (kw := none) (q := some (q, d)) (fun _ => rfl) (fun _ => rfl)
    (fun ⟨x, kk, h⟩ => absurd h (hi x kk)) s

/-- Settles O38: the replacement of `I` alone; Annn and Fx29 overwrite it. -/
theorem indexIsSeenOnlyByItsInstructions : Obligations.IndexIsSeenOnlyByItsInstructions := by
  unfold Obligations.IndexIsSeenOnlyByItsInstructions
  intro i s w
  refine ⟨fun t h => (instructionsWriteOnlyTheirState i s t h).2.1, ?blind, ?annn, ?fx29, fetchInstr_congr rfl rfl⟩
  case blind =>
    intro hannn hfx1E hfx29 hfx33 hfx55 hfx65 hdxyn
    refine exec_overlay (w := some w) (kw := none) (q := none) (fun hi => ?_) (fun _ => rfl) (fun _ => rfl) s
    cases hi with
    | annn nnn => exact absurd rfl (hannn nnn)
    | fx1E x => exact absurd rfl (hfx1E x)
    | fx29 x => exact absurd rfl (hfx29 x)
    | fx33 x => exact absurd rfl (hfx33 x)
    | fx55 x => exact absurd rfl (hfx55 x)
    | fx65 x => exact absurd rfl (hfx65 x)
    | dxyn x y n => exact absurd rfl (hdxyn x y n)
  case annn =>
    rintro nnn rfl
    rfl
  case fx29 =>
    rintro x rfl
    rfl

theorem transact_load_setWait (program : List Byte) (s : State) (kw : KeyWait) :
    transact (.load program) (setWait s kw) =
      (setWait (transact (.load program) s).1 kw, (transact (.load program) s).2) := by
  obtain hfits | hover := le_or_gt (program.length + 0x200) 4096
  · rw [transact_load_of_fits s hfits, transact_load_of_fits (setWait s kw) hfits]
    rfl
  · rw [transact_load_of_oversized s hover, transact_load_of_oversized (setWait s kw) hover]

/-- Settles O46: the replacement of the latch alone. -/
theorem latchIsSeenOnlyByFx0A : Obligations.LatchIsSeenOnlyByFx0A := by
  unfold Obligations.LatchIsSeenOnlyByFx0A
  refine ⟨fun i s kw hi => ?exec, fun s kw => fetchInstr_congr rfl rfl, fun o s kw hreset hstep => ?host, fun _ => rfl⟩
  case exec =>
    exact exec_overlay (w := none) (kw := some kw) (q := none) (fun _ => rfl) (fun ⟨x, h⟩ => absurd h (hi x))
      (fun _ => rfl) s
  case host =>
    cases o with
    | reset => exact absurd rfl hreset
    | step r => exact absurd rfl (hstep r)
    | load program => exact transact_load_setWait program s kw
    | tick | keyDown | keyUp | display | beep => rfl

/-! ### Registers outside the "reads" column -/

/-- Two states that agree on all but register `r`. -/
def AgreeExcept (r : Reg) (t t' : State) : Prop := { t' with v := t.v } = t ∧ SameRegsExcept [r] t t'

/-- Two outcomes that are the same but for register `r` of the next state. -/
inductive AgreeOutcome (r : Reg) :
    Host.Outcome State Fault Refusal → Host.Outcome State Fault Refusal → Prop
  | next {t t' : State} (h : AgreeExcept r t t') : AgreeOutcome r (.next t) (.next t')
  | fault (f : Fault) : AgreeOutcome r (.fault f) (.fault f)

section

variable {r : Reg} {t t' : State}

theorem getReg_setReg_of_ne {s : State} {q : Reg} (h : q ≠ r) (b : Byte) : getReg (setReg s r b) q = getReg s q := by
  rw [getReg_setReg, if_neg h]

theorem agreeExcept_setReg_self (s : State) (r : Reg) (b : Byte) : AgreeExcept r s (setReg s r b) :=
  ⟨rfl, fun _ hq => getReg_setReg_of_ne (mt List.mem_singleton.mpr hq) b⟩

/-- The same value is written to one register of both. -/
theorem AgreeExcept.setReg (h : AgreeExcept r t t') (x : Reg) {v v' : Byte} (hv : v' = v) :
    AgreeExcept r (setReg t x v) (setReg t' x v') := by
  obtain ⟨hrest, hregs⟩ := h
  refine ⟨congrArg (Machine.setReg · x v) hrest, fun q hq => ?_⟩
  rw [getReg_setReg, getReg_setReg, hv, hregs q hq]

/-- The same value is written to an item that is no register. -/
theorem AgreeExcept.update {α : Type} (h : AgreeExcept r t t') (f : State → α → State)
    (hf : ∀ u a v, f { u with v := v } a = { f u a with v := v }) {a a' : α} (ha : a' = a) :
    AgreeExcept r (f t a) (f t' a') := by
  subst ha
  obtain ⟨hrest, hregs⟩ := h
  have hv (u : State) : (f u a').v = u.v := by
    have hself := congrArg State.v (hf u a' u.v)
    exact hself
  refine ⟨?_, fun q hq => ?_⟩
  · rw [hv, ← hf, hrest]
  · simpa only [getReg, hv] using hregs q hq

theorem AgreeExcept.setPc (h : AgreeExcept r t t') {p p' : Word16} (hp : p' = p) :
    AgreeExcept r (setPc t p) (setPc t' p') := h.update Machine.setPc (fun _ _ _ => rfl) hp

theorem AgreeExcept.advance (h : AgreeExcept r t t') : AgreeExcept r (advance t) (advance t') := by
  have hpc := congrArg (fun u : State => u.pc + 2) h.1
  exact h.setPc hpc

theorem AgreeExcept.skipIf (h : AgreeExcept r t t') {c c' : Bool} (hc : c' = c) :
    AgreeExcept r (skipIf c t) (skipIf c' t') := h.update (fun u c => Machine.skipIf c u) (fun _ _ _ => rfl) hc

theorem AgreeExcept.setIndex (h : AgreeExcept r t t') {w w' : BitVec Config.iWidth} (hw : w' = w) :
    AgreeExcept r (setIndex t w) (setIndex t' w') := h.update Machine.setIndex (fun _ _ _ => rfl) hw

theorem AgreeExcept.setMem (h : AgreeExcept r t t') {m m' : List Host.Cell} (hm : m' = m) :
    AgreeExcept r (setMem t m) (setMem t' m') := h.update Machine.setMem (fun _ _ _ => rfl) hm

theorem AgreeExcept.flagThenResult (h : AgreeExcept r t t') (x : Reg) {v v' f f' : Byte} (hv : v' = v) (hf : f' = f) :
    AgreeExcept r (flagThenResult t x v f) (flagThenResult t' x v' f') :=
  (h.setReg VF hf).setReg x hv

theorem AgreeExcept.resultThenFlag (h : AgreeExcept r t t') (x : Reg) {v v' f f' : Byte} (hv : v' = v) (hf : f' = f) :
    AgreeExcept r (resultThenFlag t x v f) (resultThenFlag t' x v' f') :=
  (h.setReg x hv).setReg VF hf

theorem agreeOutcome_guarded (F : Option Fault) (h : AgreeExcept r t t') :
    AgreeOutcome r (guarded F t) (guarded F t') := by
  cases F with
  | none => exact .next h
  | some f => exact .fault f

end

theorem agreeExcept_loadRegs (s : State) (r : Reg) (b : Byte) (x : Reg) :
    AgreeExcept r (loadRegs s x) (loadRegs (setReg s r b) x) := by
  refine ⟨by unfold loadRegs; rfl, fun q hq => ?_⟩
  rw [getReg_loadRegs, getReg_loadRegs, getReg_setReg_of_ne (mt List.mem_singleton.mpr hq)]
  rfl

/-- A block of registers does not depend on one above it. -/
theorem regBlock_setReg_of_not_mem {s : State} {r x : Reg} (h : r ∉ regsUpTo x) (b : Byte) :
    regBlock (setReg s r b) x = regBlock s x := by
  refine List.ext_getElem (by rw [length_regBlock, length_regBlock]) fun k hk hk' => ?_
  have hle : k ≤ x.toNat := by
    rw [length_regBlock] at hk
    exact Nat.le_of_lt_succ hk
  have hreg : (BitVec.ofNat 4 k).toNat = k := Nat.mod_eq_of_lt (Nat.lt_of_le_of_lt hle x.isLt)
  have hne : BitVec.ofNat 4 k ≠ r := fun hkr => h (mem_regsUpTo.mpr (by rwa [← hkr, hreg]))
  rw [← List.getD_eq_getElem _ 0 hk, ← List.getD_eq_getElem _ 0 hk', getD_regBlock hle, getD_regBlock hle,
    getReg_setReg_of_ne hne]

/-- Another value in a register outside the "reads" column of an instruction matters to that register alone. -/
theorem exec_agree {i : Instr} {r : Reg} (hr : r ∉ regsRead i) (s : State) (b : Byte) :
    AgreeOutcome r (exec i s) (exec i (setReg s r b)) := by
  have h : AgreeExcept r s (setReg s r b) := agreeExcept_setReg_self s r b
  have hread (x : Reg) (hx : x ∈ regsRead i) : getReg (setReg s r b) x = getReg s x :=
    getReg_setReg_of_ne (fun hxr : x = r => hr (hxr ▸ hx)) b
  cases i
  case op00E0 =>
    change AgreeOutcome r (exec00E0 s) (exec00E0 (setReg s r b))
    unfold exec00E0
    exact .next (h.setMem rfl).advance
  case op2nnn nnn =>
    obtain ⟨hfree, hk, hsp, hexec⟩ | ⟨hfull, hexec⟩ := exec_op2nnn_cases nnn s
    · rw [hexec, exec_op2nnn_of_free (s := setReg s r b) nnn hfree hk hsp]
      exact .next ⟨rfl, h.2⟩
    · rw [hexec, exec_eq_fault_of_execFault (.callFull (s := setReg s r b) nnn hfull)]
      exact .fault _
  case op00EE =>
    obtain ⟨hle, hk, hsp, hexec⟩ | ⟨hempty, hexec⟩ := exec_op00EE_cases s
    · rw [hexec, exec_op00EE_of_held (s := setReg s r b) hle hk hsp]
      exact .next ⟨rfl, h.2⟩
    · rw [hexec, exec_eq_fault_of_execFault (.returnEmpty (s := setReg s r b) hempty)]
      exact .fault _
  case op1nnn nnn => exact .next (h.setPc rfl)
  case opBnnn nnn =>
    have h0 := hread 0#4 (by simp [regsRead])
    exact .next (h.setPc (by rw [h0]))
  case op3xkk x kk | op4xkk x kk =>
    have hx := hread x (by simp [regsRead])
    exact .next (h.skipIf (by rw [hx]))
  case op5xy0 x y | op9xy0 x y =>
    have hx := hread x (by simp [regsRead])
    have hy := hread y (by simp [regsRead])
    exact .next (h.skipIf (by rw [hx, hy]))
  case opEx9E x =>
    have hx := hread x (by simp [regsRead])
    obtain hle | hgt := le_or_gt (getReg s x).toNat 15
    · rw [exec_opEx9E_of_le hle, exec_opEx9E_of_le (hx ▸ hle)]
      exact .next (h.skipIf (by rw [hx, setReg_keys]))
    · rw [exec_opEx9E_of_gt hgt, exec_opEx9E_of_gt (hx ▸ hgt)]
      exact .fault _
  case opExA1 x =>
    have hx := hread x (by simp [regsRead])
    obtain hle | hgt := le_or_gt (getReg s x).toNat 15
    · rw [exec_opExA1_of_le hle, exec_opExA1_of_le (hx ▸ hle)]
      exact .next (h.skipIf (by rw [hx, setReg_keys]))
    · rw [exec_opExA1_of_gt hgt, exec_opExA1_of_gt (hx ▸ hgt)]
      exact .fault _
  case op6xkk x kk => exact .next (h.setReg x rfl).advance
  case op7xkk x kk =>
    have hx := hread x (by simp [regsRead])
    exact .next (h.setReg x (by rw [hx])).advance
  case op8xy0 x y =>
    have hy := hread y (by simp [regsRead])
    exact .next (h.setReg x hy).advance
  case op8xy1 x y | op8xy2 x y | op8xy3 x y =>
    have hx := hread x (by simp [regsRead])
    have hy := hread y (by simp [regsRead])
    exact .next (h.setReg x (by rw [hx, hy])).advance
  case op8xy4 x y =>
    have hx := hread x (by simp [regsRead])
    have hy := hread y (by simp [regsRead])
    exact .next (h.resultThenFlag x (by rw [hx, hy]) (by rw [hx, hy])).advance
  case op8xy5 x y | op8xy7 x y =>
    have hx := hread x (by simp [regsRead])
    have hy := hread y (by simp [regsRead])
    exact .next (h.flagThenResult x (by rw [hx, hy]) (by rw [hx, hy])).advance
  case op8xy6 x y | op8xyE x y =>
    have hx := hread x (by simp [regsRead])
    exact .next (h.flagThenResult x (by rw [hx]) (by rw [hx])).advance
  case opCxkk x kk =>
    have hdrawn : AgreeExcept r (drawRandom s) (drawRandom (setReg s r b)) := agreeExcept_setReg_self (drawRandom s) r b
    exact .next (hdrawn.setReg x rfl).advance
  case opFx07 x => exact .next (h.setReg x rfl).advance
  case opAnnn nnn => exact .next (h.setIndex rfl).advance
  case opFx1E x =>
    have hx := hread x (by simp [regsRead])
    exact .next (h.setIndex (by rw [hx, setReg_i])).advance
  case opFx29 x =>
    have hx := hread x (by simp [regsRead])
    exact .next (h.setIndex (by rw [hx])).advance
  case opFx15 x =>
    have hx := hread x (by simp [regsRead])
    exact .next (h.update setDelay (fun _ _ _ => rfl) hx).advance
  case opFx18 x =>
    have hx := hread x (by simp [regsRead])
    exact .next (h.update setSound (fun _ _ _ => rfl) hx).advance
  case opFx0A x =>
    cases hl : s.kw.latched <;> by_cases hk : s.keys = 0
    · rw [exec_opFx0A_of_unlatched_of_no_key x hl hk, exec_opFx0A_of_unlatched_of_no_key (s := setReg s r b) x hl hk]
      exact .next h
    · rw [exec_opFx0A_of_unlatched_of_key x hl hk, exec_opFx0A_of_unlatched_of_key (s := setReg s r b) x hl hk]
      exact .next (h.update setWait (fun _ _ _ => rfl) rfl)
    · rw [exec_opFx0A_of_latched_of_no_key x hl hk, exec_opFx0A_of_latched_of_no_key (s := setReg s r b) x hl hk]
      exact .next ((h.setReg x rfl).update setWait (fun _ _ _ => rfl) rfl).advance
    · rw [exec_opFx0A_of_latched_of_key x hl hk, exec_opFx0A_of_latched_of_key (s := setReg s r b) x hl hk]
      exact .next h
  case opFx33 x =>
    have hx := hread x (by simp [regsRead])
    change AgreeOutcome r (execFx33 x s) (execFx33 x (setReg s r b))
    rw [execFx33, execFx33, hx]
    exact agreeOutcome_guarded _ (h.setMem rfl).advance
  case opFx55 x =>
    change AgreeOutcome r (execFx55 x s) (execFx55 x (setReg s r b))
    rw [execFx55, execFx55, regBlock_setReg_of_not_mem hr]
    exact agreeOutcome_guarded _ (h.setMem rfl).advance
  case opFx65 x => exact agreeOutcome_guarded _ (agreeExcept_loadRegs s r b x).advance
  case opDxyn x y n =>
    have hx := hread x (by simp [regsRead])
    have hy := hread y (by simp [regsRead])
    change AgreeOutcome r (execDxyn x y n s) (execDxyn x y n (setReg s r b))
    simp only [execDxyn, hx, hy]
    exact agreeOutcome_guarded _ ((h.setMem rfl).setReg VF rfl).advance

/-- Settles O29: the frame of a completed instruction, and the agreement of the two runs. -/
theorem registerAccessTable : Obligations.RegisterAccessTable := by
  unfold Obligations.RegisterAccessTable
  refine ⟨fun i s t => sameRegsExcept_regsWritten, fun x s t h hpc => ?waits, fun i s r b hr => ?_⟩
  case waits =>
    obtain ⟨-, v, kw, rfl⟩ | ⟨-, kw, rfl⟩ := exec_opFx0A_eq_next h
    · have hmoved : s.pc + 2 = s.pc := hpc
      bv_omega
    · exact fun _ _ => rfl
  have hagree := exec_agree hr s b
  refine ⟨fun t h => ?_, fun f h => ?_⟩
  · rw [h] at hagree
    generalize exec i (setReg s r b) = o at hagree ⊢
    cases hagree with
    | next h => exact ⟨_, rfl, h⟩
  · rw [h] at hagree
    generalize exec i (setReg s r b) = o at hagree ⊢
    cases hagree with
    | fault => rfl

end Sys2Proof.Machine
